-- ==== Sys2Proof/Word.lean ====
section
/-! DEFINITION. The word view of an accepted instruction and the widths of its fields as types. -/

namespace Sys2Proof

/-- The 32-bit word view `iw[31:0]` of an accepted instruction (00_scope.md R8): notation for the 32 symbols. -/
abbrev Word := BitVec 32

/-- The 6-bit opcode field (30_encoding.md R60). -/
abbrev Opcode := BitVec 6

/-- A 5-bit source-address field, an index 0..31 (30_encoding.md R63). -/
abbrev SrcIndex := BitVec 5

/-- The 10-bit store payload, and the contents of a number register (30_encoding.md R62; 10_state.md R22). -/
abbrev Payload := BitVec 10

/-- The 6-bit function code (30_encoding.md R60). -/
abbrev Funct := BitVec 6

end Sys2Proof
end

