-- ==== Sys2Proof/Config.lean ====
section
/-! DEFINITION. The implementation parameters of 00_scope.md R5. The spec fixes every one but RESULT_W, of which no
rule's result depends (92_eei_decisions.md D12). No behaviour of this hardware is undefined, so there is no free value
here (93_implementation_defined.md). -/

namespace Sys2Proof.Config

/-- INSTR_LEN (R5): an instruction has exactly this many symbols. -/
abbrev instrLen : Nat := 32

/-- NUM_REGS (R5): number registers, index 0..21. -/
abbrev numRegs : Nat := 22

/-- HIST_SLOTS (R5): history registers, index 0..9. -/
abbrev histSlots : Nat := 10

/-- The least RESULT_W that R5 admits. The model holds results as exact integers (R8). -/
abbrev minResultW : Nat := 21

end Sys2Proof.Config
end

