-- ==== Sys2Proof/Syntax.lean ====
section
/-! DEFINITION. The instructions, the record the decoder makes of one, and what an `exec` call can report. -/

namespace Sys2Proof

/-- The six instructions of 30_encoding.md R66, one constructor per row of spec/opcode_table.json. A constructor holds
the fields its instruction uses; the fields it ignores are no part of it, since any value in them encodes the same
instruction (R67, R70). -/
inductive Instr where
  /-- STORE, 41_register_file.md R104. -/
  | store (imm10 : Payload)
  /-- RECALL, 41_register_file.md R109. -/
  | recallLast
  /-- ADD, 42_alu_arithmetic.md R129. -/
  | add (rs1 rs2 : SrcIndex)
  /-- SUB, 42_alu_arithmetic.md R130. -/
  | sub (rs1 rs2 : SrcIndex)
  /-- MUL, 42_alu_arithmetic.md R131. -/
  | mul (rs1 rs2 : SrcIndex)
  /-- DIV, 42_alu_arithmetic.md R132. -/
  | div (rs1 rs2 : SrcIndex)
deriving DecidableEq, Repr

/-- The four operations of the ALU (40_decoder.md R85). -/
inductive AluOp where
  | add | sub | mul | div
deriving DecidableEq, Repr

/-- The five fields of the format (30_encoding.md R60), the info of `MalformedBits` (60_exceptions.md R170). -/
inductive Field where
  | opcode | sourceOne | sourceTwo | payload | functionCode
deriving DecidableEq, Repr

/-- What an opcode selects (40_decoder.md R84; 30_encoding.md R64). -/
inductive OpClass where
  | arith | store | recallLast | invalid
deriving DecidableEq, Repr

/-- The Decoded record (40_decoder.md R83). -/
structure Decoded where
  opcode : Opcode
  rs1 : SrcIndex
  rs2 : SrcIndex
  imm10 : Payload
  funct : Funct
deriving DecidableEq, Repr

/-- The seven error classes, each with its info (60_exceptions.md R170). -/
inductive ExecError where
  /-- The instruction is not exactly 32 symbols; info: its length (40_decoder.md R81). -/
  | invalidLength (length : Nat)
  /-- A field holds a symbol other than `0` and `1`; info: the first such field (40_decoder.md R82). -/
  | malformedBits (field : Field)
  /-- No instruction has this opcode (60_exceptions.md R172). -/
  | invalidOpcode (opcode : Opcode)
  /-- No arithmetic instruction has this function code (60_exceptions.md R173). -/
  | invalidFunction (funct : Funct)
  /-- A source address names no number register; info: the first such index (60_exceptions.md R174). -/
  | registerOutOfRange (index : SrcIndex)
  /-- DIV with divisor 0 (60_exceptions.md R175). -/
  | divisionByZero
  /-- RECALL with no value left in the walk (60_exceptions.md R176). -/
  | noHistory
deriving DecidableEq, Repr

/-- The structured outcome of one `exec` call (43_dispatch.md R152). -/
inductive ExecOutcome where
  /-- A STORE: the slot it used and the value it stored. -/
  | stored (slot : Fin Config.numRegs) (value : Payload)
  /-- A successful arithmetic instruction. -/
  | result (op : AluOp) (value : Int)
  /-- A successful RECALL. -/
  | recalled (value : Int)
  /-- Every failure. -/
  | error (e : ExecError)
deriving DecidableEq, Repr

end Sys2Proof
end

