-- ==== Sys2Proof/WellFormed.lean ====
section
/-! DEFINITION. Which inputs of `exec` encode a word at all (30_encoding.md R69): exactly 32 symbols, each `0` or `1`.
These are this hardware's well-formedness checks. An `Instr` needs none of its own: each of its fields has the width
its encoding gives it as its type, and every value of every field can be encoded (R63, R70), an index 22..31 too. -/

namespace Sys2Proof

/-- The length is 32 characters (40_decoder.md R81). -/
def Input.lengthOk (I : List Char) : Bool := I.length == Config.instrLen

/-- Every symbol is `0` or `1` (40_decoder.md R82). -/
def Input.symbolsOk (I : List Char) : Bool := I.all fun c => c == '0' || c == '1'

/-- The input spells a 32-bit word. -/
def Input.wellFormed (I : List Char) : Bool := Input.lengthOk I && Input.symbolsOk I

end Sys2Proof
end

