-- ==== Sys2Proof/Decode.lean ====
section
/-! DEFINITION. The instruction decoder (40_decoder.md), total on any sequence of characters, and after it the encoder
(30_encoding.md R60, R66, R70). -/

namespace Sys2Proof

/-! ### Symbols and fields -/

/-- The binary symbols are exactly the characters `0` and `1` (40_decoder.md R82). -/
def isBinary (c : Char) : Bool := c == '0' || c == '1'

/-- `d` of 00_scope.md R7. It counts only on binary symbols. -/
def digit (c : Char) : Nat := if c == '1' then 1 else 0

/-- `val` of 00_scope.md R7: the unsigned integer a slice spells, most significant symbol first. -/
def val : List Char → Nat
  | [] => 0
  | c :: cs => digit c * 2 ^ cs.length + val cs

/-- `I[a,b)` of 00_scope.md R6. -/
def slice (I : List Char) (a b : Nat) : List Char := (I.drop a).take (b - a)

/-- The symbol positions `[a,b)` of a field (30_encoding.md R60). -/
def Field.bounds : Field → Nat × Nat
  | .opcode => (0, 6)
  | .sourceOne => (6, 11)
  | .sourceTwo => (11, 16)
  | .payload => (16, 26)
  | .functionCode => (26, 32)

/-- The fields in layout order (40_decoder.md R82). -/
def Field.layout : List Field := [.opcode, .sourceOne, .sourceTwo, .payload, .functionCode]

/-- The symbols of one field. -/
def fieldSymbols (I : List Char) (f : Field) : List Char := slice I f.bounds.1 f.bounds.2

/-- Every symbol of the field is binary. -/
def fieldOk (I : List Char) (f : Field) : Bool := (fieldSymbols I f).all isBinary

/-- The first field, in layout order, that holds a symbol other than `0` and `1` (40_decoder.md R82). -/
def firstBadField (I : List Char) : Option Field := Field.layout.find? fun f => !fieldOk I f

/-- Field slicing (40_decoder.md R83). -/
def sliceFields (I : List Char) : Decoded where
  opcode := BitVec.ofNat 6 (val (fieldSymbols I .opcode))
  rs1 := BitVec.ofNat 5 (val (fieldSymbols I .sourceOne))
  rs2 := BitVec.ofNat 5 (val (fieldSymbols I .sourceTwo))
  imm10 := BitVec.ofNat 10 (val (fieldSymbols I .payload))
  funct := BitVec.ofNat 6 (val (fieldSymbols I .functionCode))

/-! ### The decoder -/

/-- `decode` (40_decoder.md R80): the length check first (R81), then the symbol check of all five fields (R82), then
the slicing (R83). -/
def decode (I : List Char) : Except ExecError Decoded :=
  if I.length ≠ 32 then .error (.invalidLength I.length)
  else match firstBadField I with
    | some f => .error (.malformedBits f)
    | none => .ok (sliceFields I)

/-- Opcode classification (40_decoder.md R84; 30_encoding.md R64). -/
def classify (opcode : Opcode) : OpClass :=
  if opcode = 0b000000#6 then .arith
  else if opcode = 0b000001#6 then .store
  else if opcode = 0b100001#6 then .recallLast
  else .invalid

/-- ALU-operation select; `none` is the spec's NONE (40_decoder.md R85; 30_encoding.md R65). -/
def aluSel (funct : Funct) : Option AluOp :=
  if funct = 0b100000#6 then some .add
  else if funct = 0b100010#6 then some .sub
  else if funct = 0b011000#6 then some .mul
  else if funct = 0b011010#6 then some .div
  else none

/-- The instruction a record stands for: the rows of 43_dispatch.md R150, which fail `InvalidOpcode` and
`InvalidFunction` before any operand is read (60_exceptions.md R177). -/
def selectInstr (d : Decoded) : Except ExecError Instr :=
  match classify d.opcode with
  | .store => .ok (.store d.imm10)
  | .recallLast => .ok .recallLast
  | .invalid => .error (.invalidOpcode d.opcode)
  | .arith =>
    match aluSel d.funct with
    | some .add => .ok (.add d.rs1 d.rs2)
    | some .sub => .ok (.sub d.rs1 d.rs2)
    | some .mul => .ok (.mul d.rs1 d.rs2)
    | some .div => .ok (.div d.rs1 d.rs2)
    | none => .error (.invalidFunction d.funct)

/-- The whole of decoding: the checks of the decoder come before any opcode or function check (40_decoder.md R86). -/
def decodeInstr (I : List Char) : Except ExecError Instr :=
  match decode I with
  | .error e => .error e
  | .ok d => selectInstr d

/-! ### Words and symbols -/

/-- The `n` symbols that spell `w` in base 2, most significant first. -/
def natSymbols (n w : Nat) : List Char :=
  (List.range n).map fun i => if w.testBit (n - 1 - i) then '1' else '0'

/-- The 32 symbols of a word: `iw[31-i] = d(I[i])` (00_scope.md R8). -/
def symbolsOf (w : Word) : List Char := natSymbols 32 w.toNat

/-- The word view of a sequence of 32 binary symbols (00_scope.md R8). -/
def wordOf (I : List Char) : Word := BitVec.ofNat 32 (val I)

/-- The opcode field `iw[31:26]` (00_scope.md R8). -/
def Word.opcode (w : Word) : Opcode := w.extractLsb' 26 6

/-- The source_one field `iw[25:21]`. -/
def Word.rs1 (w : Word) : SrcIndex := w.extractLsb' 21 5

/-- The source_two field `iw[20:16]`. -/
def Word.rs2 (w : Word) : SrcIndex := w.extractLsb' 16 5

/-- The payload field `iw[15:6]`. -/
def Word.imm10 (w : Word) : Payload := w.extractLsb' 6 10

/-- The function code field `iw[5:0]`. -/
def Word.funct (w : Word) : Funct := w.extractLsb' 0 6

/-- A row of the opcode table: the word under the mask is the match (30_encoding.md R66). -/
def Word.matchesRow (w mask pat : Word) : Bool := w &&& mask == pat

/-! ### The encoder -/

/-- The word with the given fields: `opcode = iw[31:26]`, `rs1 = iw[25:21]`, `rs2 = iw[20:16]`, `payload = iw[15:6]`,
`funct = iw[5:0]` (00_scope.md R8; 30_encoding.md R60). -/
def assemble (opcode : Opcode) (rs1 rs2 : SrcIndex) (imm10 : Payload) (funct : Funct) : Word :=
  opcode ++ rs1 ++ rs2 ++ imm10 ++ funct

/-- The word of an instruction, its ignored fields 0 (30_encoding.md R66, R70). -/
def encodeWord : Instr → Word
  | .store imm10 => assemble 0b000001#6 0#5 0#5 imm10 0#6
  | .recallLast => assemble 0b100001#6 0#5 0#5 0#10 0#6
  | .add rs1 rs2 => assemble 0b000000#6 rs1 rs2 0#10 0b100000#6
  | .sub rs1 rs2 => assemble 0b000000#6 rs1 rs2 0#10 0b100010#6
  | .mul rs1 rs2 => assemble 0b000000#6 rs1 rs2 0#10 0b011000#6
  | .div rs1 rs2 => assemble 0b000000#6 rs1 rs2 0#10 0b011010#6

/-- The 32 symbols of an instruction. -/
def encode (i : Instr) : List Char := symbolsOf (encodeWord i)

/-! ### The opcode table's words -/

/-- The symbols of the table's instruction whose low `nbits` bits are those of `w` and whose other bits are 0: at least
32 of them, the most significant first. The block has no byte order (20_memory.md R43), so no word is laid out in
bytes. -/
def tableSymbols (nbits w : Nat) : List Char := natSymbols (max nbits 32) (w % 2 ^ nbits)

/-- The instruction the decoder reads from a table word, `none` where it refuses it. -/
def decodeTableWord (nbits w : Nat) : Option Instr :=
  match decodeInstr (tableSymbols nbits w) with
  | .ok i => some i
  | .error _ => none

end Sys2Proof
end

