-- ==== Sys2Proof/Machine/State.lean ====
section
/-! DEFINITION. The state of the block (10_state.md), the two sides of its transaction port, and the state after
construction. -/

namespace Sys2Proof.Machine

/-- Nothing raises a fault: the block has no stop state, and every error is the outcome of its instruction, after
which the block takes the next one (43_dispatch.md R153, R155; 60_exceptions.md R178). So the type has no constructor
(log entry 3). -/
inductive Fault where
deriving DecidableEq, Repr

/-- The reasons for which the model would give an instruction no meaning. -/
inductive Refusal where
  /-- An arm of `exec` whose instruction has no meaning yet. No arm raises it: every instruction has its meaning. It
  would be safe. -/
  | notModelled (mnemonic : String)
deriving DecidableEq, Repr

/-- The whole state of the block (10_state.md R20 to R28), and the model's own record of the port `exec`. -/
structure State where
  /-- The number bank `num[0..21]`, 10 bits each (R20, R22). Element 0 is never read or written: see
  `State.number` and `State.writeNumber`. -/
  num : Vector Payload Config.numRegs
  /-- The history ring `hist[0..9]`, exact integers (R23; 00_scope.md R5). -/
  hist : Vector Int Config.histSlots
  /-- The number-store cursor, 1..21 (R25). -/
  nslot : Fin Config.numRegs
  /-- The history write cursor, 0..9 (R26). -/
  hwp : Fin Config.histSlots
  /-- The number of valid history slots, 0..10 (R27). -/
  hcount : Nat
  /-- How many values the current recall walk has returned, 0..hcount (R28). -/
  rdepth : Nat
  /-- The model's own: the `exec` calls made and not yet executed, oldest first (00_scope.md R10; log entry 1). -/
  calls : List (List Char)
  /-- The model's own: the outcomes emitted on `exec.outcome`, oldest first (00_scope.md R10; log entry 2). -/
  outcomes : List ExecOutcome
deriving DecidableEq, Repr

/-- The block right after construction (10_state.md R33; 70_reset_and_hazards.md R190), before any call. -/
def State.reset : State where
  num := Vector.replicate Config.numRegs 0
  hist := Vector.replicate Config.histSlots 0
  nslot := 1
  hwp := 0
  hcount := 0
  rdepth := 0
  calls := []
  outcomes := []

end Sys2Proof.Machine
end

