-- ==== Sys2Proof/Machine/Ops.lean ====
section
/-! DEFINITION. The named operations over the register file and the port `exec` (41_register_file.md, 43_dispatch.md,
60_exceptions.md). -/

namespace Sys2Proof.Machine

/-! ### The number bank -/

/-- Register `i` of the bank. Register 0 is hardwired to zero (10_state.md R21). -/
def State.number (s : State) (i : Fin 22) : Payload := if i = 0 then 0 else s.num.get i

/-- `load_number` (41_register_file.md R100): an index past the bank fails, any other gives the register zero-extended
to an integer. -/
def State.loadNumber (s : State) (a : SrcIndex) : Except ExecError Int :=
  if h : a.toNat < 22 then .ok ((s.number ⟨a.toNat, h⟩).toNat : Int)
  else .error (.registerOutOfRange a)

/-- A write of register `i`. Register 0 is never overwritten (10_state.md R21). -/
def State.writeNumber (i : Fin 22) (v : Payload) (s : State) : State :=
  { s with num := if i = 0 then s.num else s.num.set i.val v i.isLt }

/-- The store cursor's advance, from 21 to 1 (41_register_file.md R103). -/
def nextSlot (n : Fin 22) : Fin 22 := if n = 21 then 1 else n + 1

/-- `store_number` (41_register_file.md R104): the register at the cursor is written, then the cursor advances. -/
def State.storeNumber (v : Payload) (s : State) : State :=
  { s.writeNumber s.nslot v with nslot := nextSlot s.nslot }

/-! ### The history ring -/

/-- The value field of slot `j` (10_state.md R23). -/
def State.histAt (s : State) (j : Fin 10) : Int := s.hist.get j

/-- The history write cursor's advance, from 9 to 0 (41_register_file.md R107). -/
def nextHwp (h : Fin 10) : Fin 10 := if h = 9 then 0 else h + 1

/-- `store_history` (41_register_file.md R106, R107). -/
def State.storeHistory (v : Int) (s : State) : State :=
  { s with
    hist := s.hist.set s.hwp.val v s.hwp.isLt
    hwp := nextHwp s.hwp
    hcount := min (s.hcount + 1) 10
    rdepth := 0 }

/-- `(hwp - (depth + 1)) mod 10`: the slot a walk of the given depth reads next (41_register_file.md R108). -/
def recallAddr (hwp : Fin 10) (depth : Nat) : Fin 10 :=
  ⟨(((hwp.val : Int) - ((depth : Int) + 1)) % 10).toNat, by omega⟩

/-- The walk goes one value further back (41_register_file.md R109). -/
def State.advanceWalk (s : State) : State := { s with rdepth := s.rdepth + 1 }

/-! ### Outcomes -/

/-- The numeric code of an error class (60_exceptions.md R170). -/
def errorCode : ExecError → Nat
  | .invalidLength _ => 1
  | .malformedBits _ => 2
  | .invalidOpcode _ => 3
  | .invalidFunction _ => 4
  | .registerOutOfRange _ => 5
  | .divisionByZero => 6
  | .noHistory => 7

/-- The outcome `o` on the port `exec.outcome`. -/
def State.report (o : ExecOutcome) (s : State) : State := { s with outcomes := s.outcomes ++ [o] }

/-- `emit` (00_scope.md R9): the instruction ends with the outcome `o` and its staged writes, held in `s`, are
committed (43_dispatch.md R151). -/
def emit (o : ExecOutcome) (s : State) : Host.Outcome State Fault Refusal := .next (s.report o)

/-- `raise` (00_scope.md R9), this hardware's taking of an exception: the instruction ends with the error `e`, and
nothing else of `s`, the state before the instruction, changes. There is no trap: nothing is saved, no mode changes and
no handler runs, so there is no return from one either (60_exceptions.md R178, R179). -/
def raise (e : ExecError) (s : State) : Host.Outcome State Fault Refusal := .next (s.report (.error e))

/-! ### The caller's side of the ports -/

/-- The caller makes the call `exec(I)`, after those it has made already (00_scope.md R10). -/
def State.call (I : List Char) (s : State) : State := { s with calls := s.calls ++ [I] }

/-- The call `exec(I)` is placed before every pending one. -/
def State.callFirst (I : List Char) (s : State) : State := { s with calls := I :: s.calls }

/-- The next call, and the state without it (20_memory.md R47: in the order the caller makes them). -/
def State.takeCall (s : State) : Option (List Char × State) :=
  match s.calls with
  | [] => none
  | I :: rest => some (I, { s with calls := rest })

/-- Construction (70_reset_and_hazards.md R190): the label affects no rule. -/
def State.init (_label : String) : State := State.reset

/-- `snap.numbers`: the 22 values in index order (60_exceptions.md R182). -/
def State.snapNumbers (s : State) : List Payload := (List.finRange 22).map s.number

/-- `snap.history`: the 10 value fields in slot order (60_exceptions.md R183). -/
def State.snapHistory (s : State) : List Int := (List.finRange 10).map s.histAt

end Sys2Proof.Machine
end

