-- ==== Sys2Proof/Machine/Flags.lean ====
section
/-! DEFINITION. The block stores no flags, condition codes or predicates (10_state.md R31). It computes two conditions
within an instruction, and they stand here. -/

namespace Sys2Proof.Machine

/-- `div0` (42_alu_arithmetic.md R126): a divide whose divisor is 0. -/
def div0 (sel : AluOp) (opb : Int) : Bool := sel == .div && opb == 0

/-- `recall_ok` (41_register_file.md R108): the walk has a value left. -/
def State.recallOk (s : State) : Bool := decide (s.rdepth < s.hcount)

end Sys2Proof.Machine
end

