-- ==== Sys2Proof/Machine/Alu.lean ====
section
/-! DEFINITION. The ALU: pure, over exact integers (42_alu_arithmetic.md R120 to R126). -/

namespace Sys2Proof.Machine

/-- `add` (R121). -/
def aluAdd (a b : Int) : Int := a + b

/-- `subtract` (R122). -/
def aluSub (a b : Int) : Int := a - b

/-- `multiply` (R123): the whole product. -/
def aluMul (a b : Int) : Int := a * b

/-- `tdiv` (R125): the quotient truncated toward zero. -/
def aluTdiv (a b : Int) : Int := Int.tdiv a b

/-- The mux `alu_res` (R126). At a zero divisor the quotient does not count. -/
def aluRes (sel : AluOp) (a b : Int) : Int :=
  match sel with
  | .add => aluAdd a b
  | .sub => aluSub a b
  | .mul => aluMul a b
  | .div => aluTdiv a b

/-- The ALU with its one failure, `DivisionByZero` (R124, R126). -/
def alu (sel : AluOp) (a b : Int) : Except ExecError Int :=
  if div0 sel b then .error .divisionByZero else .ok (aluRes sel a b)

end Sys2Proof.Machine
end

