-- ==== Sys2Proof/Machine/Operands.lean ====
section
/-! DEFINITION. The one operand form that reads state: the two source registers of an arithmetic instruction. STORE's
operand is its payload, RECALL has none, and every destination is implicit (30_encoding.md R63, R67). -/

namespace Sys2Proof.Machine

/-- The operand reads `(opa, opb)`, source_one before source_two (41_register_file.md R101). -/
def State.loadOperands (s : State) (rs1 rs2 : SrcIndex) : Except ExecError (Int × Int) :=
  match s.loadNumber rs1 with
  | .error e => .error e
  | .ok a =>
    match s.loadNumber rs2 with
    | .error e => .error e
    | .ok b => .ok (a, b)

end Sys2Proof.Machine
end

