-- ==== Sys2Proof/Machine/Arithmetic.lean ====
section
/-! DEFINITION. The four arithmetic instructions (42_alu_arithmetic.md). -/

namespace Sys2Proof.Machine

/-- The common behaviour once the operation is selected (R128): both loads, then the ALU, then the history write; the
first failure ends the instruction. -/
def execArith (sel : AluOp) (rs1 rs2 : SrcIndex) (s : State) : Host.Outcome State Fault Refusal :=
  match s.loadOperands rs1 rs2 with
  | .error e => raise e s
  | .ok (a, b) =>
    match alu sel a b with
    | .error e => raise e s
    | .ok v => emit (.result sel v) (s.storeHistory v)

/-- ADD (R129). -/
def execAdd (rs1 rs2 : SrcIndex) (s : State) : Host.Outcome State Fault Refusal := execArith .add rs1 rs2 s

/-- SUB (R130). -/
def execSub (rs1 rs2 : SrcIndex) (s : State) : Host.Outcome State Fault Refusal := execArith .sub rs1 rs2 s

/-- MUL (R131). -/
def execMul (rs1 rs2 : SrcIndex) (s : State) : Host.Outcome State Fault Refusal := execArith .mul rs1 rs2 s

/-- DIV (R132). -/
def execDiv (rs1 rs2 : SrcIndex) (s : State) : Host.Outcome State Fault Refusal := execArith .div rs1 rs2 s

end Sys2Proof.Machine
end

