-- ==== Sys2Proof/Machine/RegisterTransfer.lean ====
section
/-! DEFINITION. The two register-transfer instructions (41_register_file.md). -/

namespace Sys2Proof.Machine

/-- STORE (R104). -/
def execStore (imm10 : Payload) (s : State) : Host.Outcome State Fault Refusal :=
  emit (.stored s.nslot imm10) (s.storeNumber imm10)

/-- RECALL (R109). -/
def execRecall (s : State) : Host.Outcome State Fault Refusal :=
  if s.recallOk then emit (.recalled (s.histAt (recallAddr s.hwp s.rdepth))) s.advanceWalk
  else raise .noHistory s

end Sys2Proof.Machine
end

