-- ==== Sys2Proof/Machine/Dispatch.lean ====
section
/-! DEFINITION. The dispatcher's transition table (43_dispatch.md R150): one arm per instruction. -/

namespace Sys2Proof.Machine

def exec (i : Instr) (s : State) : Host.Outcome State Fault Refusal :=
  match i with
  | .store imm10 => Sys2Proof.Machine.execStore imm10 s
  | .recallLast => Sys2Proof.Machine.execRecall s
  | .add rs1 rs2 => Sys2Proof.Machine.execAdd rs1 rs2 s
  | .sub rs1 rs2 => Sys2Proof.Machine.execSub rs1 rs2 s
  | .mul rs1 rs2 => Sys2Proof.Machine.execMul rs1 rs2 s
  | .div rs1 rs2 => Sys2Proof.Machine.execDiv rs1 rs2 s

end Sys2Proof.Machine
end

