-- ==== Sys2Proof/Machine/Execute.lean ====
section
/-! DEFINITION. One `exec` call (43_dispatch.md R150): the decoder, then the dispatcher. -/

namespace Sys2Proof.Machine

/-- The transaction `exec(I)` on a state from which the call has been taken. Every error is caught here and becomes the
outcome (43_dispatch.md R153). -/
def execCall (I : List Char) (s : State) : Host.Outcome State Fault Refusal :=
  match decodeInstr I with
  | .error e => raise e s
  | .ok i => exec i s

/-- One step: the oldest pending call is executed whole (20_memory.md R47, R48). With no call pending nothing happens
(log entry 11). -/
def stepCall (s : State) : Host.Outcome State Fault Refusal :=
  match s.takeCall with
  | none => .next s
  | some (I, s') => execCall I s'

/-- The state in which the table's instruction is the next call. -/
def placeTableWord (s : State) (nbits w : Nat) : State := s.callFirst (tableSymbols nbits w)

end Sys2Proof.Machine
end

