-- ==== Sys2Proof/Machine/Step.lean ====
section
/-! DEFINITION. The step function, and the placing of an opcode-table word where it fetches. -/

namespace Sys2Proof.Machine

/-- One step of the block: one `exec` call (43_dispatch.md R154). -/
def step (s : State) : Host.Outcome State Fault Refusal := stepCall s

/-- `s` with the table's instruction as its next call; nothing else changes (log entry 1). -/
def State.withFetchWord (s : State) (nbits w : Nat) : State := placeTableWord s nbits w

end Sys2Proof.Machine
end

