-- ==== Sys2Proof/Machine/Datapath.lean ====
section
/-! DEFINITION. A second design of the block: the clocked realisation that 70_reset_and_hazards.md R196 calls
admissible. Signals are computed from the 32 symbols and the state, and one clock edge commits the writes they enable.
The model's step does not use it; a statement says the two agree. -/

namespace Sys2Proof.Machine

/-! ### Decode signals -/

/-- `decode_ok` (41_register_file.md R102): the length check and the symbol check both passed. -/
def decodeOk (I : List Char) : Bool := I.length == 32 && Field.layout.all (fieldOk I)

/-- `is_arith` (40_decoder.md R84). -/
def isArith (d : Decoded) : Bool := d.opcode == 0b000000#6

/-- `is_store` (40_decoder.md R84). -/
def isStore (d : Decoded) : Bool := d.opcode == 0b000001#6

/-- `is_recall` (40_decoder.md R84). -/
def isRecall (d : Decoded) : Bool := d.opcode == 0b100001#6

/-- `op_invalid` (40_decoder.md R84). -/
def opInvalid (d : Decoded) : Bool := !(isArith d || isStore d || isRecall d)

/-! ### Read ports -/

/-- The index names a register of the bank (41_register_file.md R100). -/
def inBank (a : SrcIndex) : Bool := decide (a.toNat < 22)

/-- The value on a read port of the number bank; it counts only for an index in the bank. -/
def readPort (s : State) (a : SrcIndex) : Int :=
  if h : a.toNat < 22 then ((s.number ⟨a.toNat, h⟩).toNat : Int) else 0

/-- The value on the read port of the history ring, at `recall_addr` (41_register_file.md R108). -/
def recallPort (s : State) : Int := s.histAt (recallAddr s.hwp s.rdepth)

/-! ### Write ports -/

/-- `num_we` (41_register_file.md R102). -/
def numWe (I : List Char) : Bool := decodeOk I && isStore (sliceFields I)

/-- `num_waddr` (41_register_file.md R102). -/
def numWaddr (s : State) : Fin 22 := s.nslot

/-- `num_wdata` (41_register_file.md R102). -/
def numWdata (I : List Char) : Payload := (sliceFields I).imm10

/-- `hist_wdata`, the ALU's result (41_register_file.md R106; 42_alu_arithmetic.md R126). It counts only when
`hist_we`. -/
def histWdata (I : List Char) (s : State) : Int :=
  let d := sliceFields I
  match aluSel d.funct with
  | none => 0
  | some sel => aluRes sel (readPort s d.rs1) (readPort s d.rs2)

/-- `hist_we` (41_register_file.md R105). -/
def histWe (I : List Char) (s : State) : Bool :=
  let d := sliceFields I
  decodeOk I && isArith d && (aluSel d.funct).isSome && inBank d.rs1 && inBank d.rs2 &&
    !(aluSel d.funct == some .div && readPort s d.rs2 == 0)

/-- `hist_waddr` (41_register_file.md R106). -/
def histWaddr (s : State) : Fin 10 := s.hwp

/-- A RECALL that succeeds (41_register_file.md R108, R109). -/
def walkWe (I : List Char) (s : State) : Bool := decodeOk I && isRecall (sliceFields I) && s.recallOk

/-! ### The outcome and the clock edge -/

/-- The outcome of an arithmetic instruction (42_alu_arithmetic.md R128). -/
def arithOutcome (d : Decoded) (s : State) : ExecOutcome :=
  match aluSel d.funct with
  | none => .error (.invalidFunction d.funct)
  | some sel =>
    if !inBank d.rs1 then .error (.registerOutOfRange d.rs1)
    else if !inBank d.rs2 then .error (.registerOutOfRange d.rs2)
    else if div0 sel (readPort s d.rs2) then .error .divisionByZero
    else .result sel (aluRes sel (readPort s d.rs1) (readPort s d.rs2))

/-- The outcome mux, in the order of 60_exceptions.md R177. -/
def outcomeMux (I : List Char) (s : State) : ExecOutcome :=
  let d := sliceFields I
  if I.length ≠ 32 then .error (.invalidLength I.length)
  else match firstBadField I with
    | some f => .error (.malformedBits f)
    | none =>
      if opInvalid d then .error (.invalidOpcode d.opcode)
      else if isStore d then .stored (numWaddr s) (numWdata I)
      else if isRecall d then (if s.recallOk then .recalled (recallPort s) else .error .noHistory)
      else arithOutcome d s

/-- The clock edge: the writes that the signals enable, all at once, and the outcome. -/
def clockEdge (I : List Char) (s : State) : State where
  num := if numWe I && numWaddr s != 0 then s.num.set (numWaddr s).val (numWdata I) (numWaddr s).isLt else s.num
  nslot := if numWe I then nextSlot s.nslot else s.nslot
  hist := if histWe I s then s.hist.set (histWaddr s).val (histWdata I s) (histWaddr s).isLt else s.hist
  hwp := if histWe I s then nextHwp s.hwp else s.hwp
  hcount := if histWe I s then min (s.hcount + 1) 10 else s.hcount
  rdepth := if histWe I s then 0 else if walkWe I s then s.rdepth + 1 else s.rdepth
  calls := s.calls
  outcomes := s.outcomes ++ [outcomeMux I s]

end Sys2Proof.Machine
end

