-- ==== Sys2Proof/Safety.lean ====
section
/-! DEFINITION. The terms in which statements about the block are made: its invariant, its history as a list, frames,
and what the opcode table says of a word. -/

namespace Sys2Proof.Machine

/-! ### Frames -/

/-- The number bank and its cursor are unchanged. -/
def State.SameNumbers (s t : State) : Prop := t.num = s.num ∧ t.nslot = s.nslot

/-- The history ring and its three cursors are unchanged. -/
def State.SameHistory (s t : State) : Prop :=
  t.hist = s.hist ∧ t.hwp = s.hwp ∧ t.hcount = s.hcount ∧ t.rdepth = s.rdepth

/-- The whole state of the block (10_state.md) is unchanged. The record of the port `exec` is no part of it (R32). -/
def State.SameBlock (s t : State) : Prop := s.SameNumbers t ∧ s.SameHistory t

/-! ### The invariant -/

/-- The ranges that 10_state.md gives the state, and what its rules say of slots that are absent. -/
structure State.Inv (s : State) : Prop where
  /-- `nslot` never holds 0 (R25); its type holds it below 22. -/
  nslot_ne_zero : s.nslot ≠ 0
  /-- The hardwired register's place in the bank holds zero (R21). -/
  num_zero : s.num.get 0 = 0
  /-- R27. -/
  hcount_le : s.hcount ≤ 10
  /-- R28. -/
  rdepth_le : s.rdepth ≤ s.hcount
  /-- Before the ring has wrapped, the write cursor counts the writes (R26, R27). -/
  hwp_eq : s.hcount < 10 → s.hwp.val = s.hcount
  /-- A slot never written holds the zero of reset (R24, R33). -/
  absent_zero : ∀ j : Fin 10, s.hcount ≤ j.val → s.histAt j = 0
  /-- Every slot is within the results the datapath can produce (42_alu_arithmetic.md R127). -/
  hist_range : ∀ j : Fin 10, -1023 ≤ s.histAt j ∧ s.histAt j ≤ 1046529

/-! ### The history as a list -/

/-- The values of the valid slots, newest first: slots `(hwp - k) mod 10` for k = 1..hcount (10_state.md R24). -/
def State.history (s : State) : List Int :=
  (List.range s.hcount).map fun k => s.histAt (recallAddr s.hwp k)

/-- What the current recall walk has still to return, in order. -/
def State.walk (s : State) : List Int := s.history.drop s.rdepth

/-! ### Instructions -/

/-- The arithmetic instruction of each operation. -/
def arithInstr (sel : AluOp) (rs1 rs2 : SrcIndex) : Instr :=
  match sel with
  | .add => .add rs1 rs2
  | .sub => .sub rs1 rs2
  | .mul => .mul rs1 rs2
  | .div => .div rs1 rs2

/-- What a successful arithmetic instruction of result `v` makes of `s`: the outcome, the slot at the write cursor, the
three history cursors, and nothing else (42_alu_arithmetic.md R128; 41_register_file.md R107). -/
def State.ArithResult (op : AluOp) (v : Int) (s t : State) : Prop :=
  t.outcomes = s.outcomes ++ [.result op v] ∧
  (∀ j, t.histAt j = if j = s.hwp then v else s.histAt j) ∧
  t.hwp.val = (s.hwp.val + 1) % 10 ∧ t.hcount = min (s.hcount + 1) 10 ∧ t.rdepth = 0 ∧
  s.SameNumbers t ∧ t.calls = s.calls

/-- An instruction that ends in the error `e`: the outcome, and nothing else (43_dispatch.md R151). -/
def State.ErrorResult (e : ExecError) (s t : State) : Prop :=
  t.outcomes = s.outcomes ++ [.error e] ∧ s.SameBlock t ∧ t.calls = s.calls

/-! ### Runs -/

/-- The slot that the k-th STORE from the cursor `n` uses, counting from 0: 1..21 round and round
(41_register_file.md R103). -/
def slotAfter (n : Fin 22) (k : Nat) : Fin 22 := ⟨(n.val - 1 + k) % 21 + 1, by omega⟩

/-- The machine the host reads, run for `k` steps (43_dispatch.md R155). -/
def runSteps (k : Nat) (s : State) : Host.Outcome State Fault Refusal := Host.Core.run Sys2Proof.core k s

/-! ### Errors -/

/-- The first error that R177 of 60_exceptions.md lists and that applies to the input, `none` where none does. The
fields are those of the word view. -/
def firstError (I : List Char) (s : State) : Option ExecError :=
  let w := wordOf I
  let arith := w.opcode = 0#6
  if I.length ≠ 32 then some (.invalidLength I.length)
  else if (slice I 0 6).any (fun c => !isBinary c) then some (.malformedBits .opcode)
  else if (slice I 6 11).any (fun c => !isBinary c) then some (.malformedBits .sourceOne)
  else if (slice I 11 16).any (fun c => !isBinary c) then some (.malformedBits .sourceTwo)
  else if (slice I 16 26).any (fun c => !isBinary c) then some (.malformedBits .payload)
  else if (slice I 26 32).any (fun c => !isBinary c) then some (.malformedBits .functionCode)
  else if w.opcode ∉ [0#6, 1#6, 33#6] then some (.invalidOpcode w.opcode)
  else if arith ∧ w.funct ∉ [32#6, 34#6, 24#6, 26#6] then some (.invalidFunction w.funct)
  else if arith ∧ 22 ≤ w.rs1.toNat then some (.registerOutOfRange w.rs1)
  else if arith ∧ 22 ≤ w.rs2.toNat then some (.registerOutOfRange w.rs2)
  else if arith ∧ w.funct = 26#6 ∧ s.loadNumber w.rs2 = .ok 0 then some .divisionByZero
  else if w.opcode = 33#6 ∧ s.hcount ≤ s.rdepth then some .noHistory
  else none

end Sys2Proof.Machine
end

