-- ==== Sys2Proof/Certificates/Slice0/Obligations.lean ====
section
/-! DEFINITION. The statements about the model, one `def Obligations.<Name> : Prop` each. Where a docstring says "the
spec's own decision", the spec marks the clause as a decision or derivation of its own, and the statement's basis is
derived. -/

open Sys2Proof Sys2Proof.Machine

/-! ### Decoding and encoding -/

/-- 30_encoding.md sections 3 and 5: the decoder reads from an instruction's encoding that instruction, with every
operand at every value. -/
def Obligations.DecodeOfEncodeIsTheInstruction : Prop :=
  ∀ i : Instr, decodeInstr (encode i) = .ok i

/-- R66: each row of the opcode table, by match and mask, decides which words decode to its instruction and with which
operands; no other word decodes to an instruction. -/
def Obligations.OpcodeTableDecidesEveryWord : Prop :=
  ∀ w : Word,
    (∀ p, decodeInstr (symbolsOf w) = .ok (.store p) ↔ w &&& 0xFC000000#32 = 0x04000000#32 ∧ p = w.imm10) ∧
    (decodeInstr (symbolsOf w) = .ok .recallLast ↔ w &&& 0xFC000000#32 = 0x84000000#32) ∧
    (∀ a b, decodeInstr (symbolsOf w) = .ok (.add a b) ↔
      w &&& 0xFC00003F#32 = 0x00000020#32 ∧ a = w.rs1 ∧ b = w.rs2) ∧
    (∀ a b, decodeInstr (symbolsOf w) = .ok (.sub a b) ↔
      w &&& 0xFC00003F#32 = 0x00000022#32 ∧ a = w.rs1 ∧ b = w.rs2) ∧
    (∀ a b, decodeInstr (symbolsOf w) = .ok (.mul a b) ↔
      w &&& 0xFC00003F#32 = 0x00000018#32 ∧ a = w.rs1 ∧ b = w.rs2) ∧
    (∀ a b, decodeInstr (symbolsOf w) = .ok (.div a b) ↔
      w &&& 0xFC00003F#32 = 0x0000001A#32 ∧ a = w.rs1 ∧ b = w.rs2) ∧
    ((∃ i, decodeInstr (symbolsOf w) = .ok i) ↔
      w &&& 0xFC000000#32 = 0x04000000#32 ∨ w &&& 0xFC000000#32 = 0x84000000#32 ∨
      w &&& 0xFC00003F#32 = 0x00000020#32 ∨ w &&& 0xFC00003F#32 = 0x00000022#32 ∨
      w &&& 0xFC00003F#32 = 0x00000018#32 ∨ w &&& 0xFC00003F#32 = 0x0000001A#32)

/-- R83: the record of an accepted input holds the value of each field's symbols, which is the value of the field's
bits in the word view. -/
def Obligations.AcceptedInputIsSlicedIntoItsFields : Prop :=
  (∀ I : List Char, Input.wellFormed I = true → ∃ d, decode I = .ok d ∧
    d.opcode.toNat = val (slice I 0 6) ∧ d.opcode = (wordOf I).opcode ∧
    d.rs1.toNat = val (slice I 6 11) ∧ d.rs1 = (wordOf I).rs1 ∧
    d.rs2.toNat = val (slice I 11 16) ∧ d.rs2 = (wordOf I).rs2 ∧
    d.imm10.toNat = val (slice I 16 26) ∧ d.imm10 = (wordOf I).imm10 ∧
    d.funct.toNat = val (slice I 26 32) ∧ d.funct = (wordOf I).funct ∧
    symbolsOf (wordOf I) = I) ∧
  decode "00000000001000100000000000100000".toList = .ok ⟨0, 1, 2, 0, 32⟩

/-- R80: every input gives a record or one of the two decode errors, and the accepted inputs are the 32 binary
symbols. -/
def Obligations.DecodeIsTotal : Prop :=
  ∀ I : List Char,
    (Input.wellFormed I = true ∧ ∃ d, decode I = .ok d) ∨
    (Input.wellFormed I = false ∧
      ((∃ n, decode I = .error (.invalidLength n)) ∨ ∃ f, decode I = .error (.malformedBits f)))

/-- R81: a length other than 32 is `InvalidLength`, before any field is looked at, and nothing of the state changes. -/
def Obligations.WrongLengthIsInvalidLength : Prop :=
  (∀ (I : List Char) (n : Nat), decode I = .error (.invalidLength n) ↔ I.length ≠ 32 ∧ n = I.length) ∧
  (∀ (s : State) (I : List Char) (rest : List (List Char)), s.calls = I :: rest → I.length ≠ 32 →
    ∃ t, step s = .next t ∧ t.outcomes = s.outcomes ++ [.error (.invalidLength I.length)] ∧ s.SameBlock t ∧
      t.calls = rest)

/-- 40_decoder.md section 3: with 32 symbols, `MalformedBits(f)` is reported exactly when `f` holds a symbol other than
`0` and `1` and no field before it does; fields the instruction ignores count too. That every field is converted, that
the first is reported and that only two characters are binary are the spec's own decisions D3, D8 and D24. -/
def Obligations.FirstBadFieldIsMalformedBits : Prop :=
  ∀ (I : List Char) (f : Field), I.length = 32 →
    (decode I = .error (.malformedBits f) ↔
      (∃ c ∈ slice I f.bounds.1 f.bounds.2, c ≠ '0' ∧ c ≠ '1') ∧
      ∀ g : Field, g.bounds.1 < f.bounds.1 → ∀ c ∈ slice I g.bounds.1 g.bounds.2, c = '0' ∨ c = '1')

/-- R84: the four opcode classes, exactly one of which holds; the dispatcher follows them. -/
def Obligations.ExactlyOneOpcodeClass : Prop :=
  (∀ d : Decoded,
    (isArith d = true ↔ d.opcode = 0b000000#6) ∧ (isStore d = true ↔ d.opcode = 0b000001#6) ∧
    (isRecall d = true ↔ d.opcode = 0b100001#6) ∧
    (opInvalid d = true ↔ ¬ (isArith d = true ∨ isStore d = true ∨ isRecall d = true)) ∧
    [isArith d, isStore d, isRecall d, opInvalid d].count true = 1 ∧
    (classify d.opcode = .arith ↔ isArith d = true) ∧ (classify d.opcode = .store ↔ isStore d = true) ∧
    (classify d.opcode = .recallLast ↔ isRecall d = true) ∧ (classify d.opcode = .invalid ↔ opInvalid d = true)) ∧
  (∀ d : Decoded, d.opcode = 0b011111#6 → opInvalid d = true ∧ selectInstr d = .error (.invalidOpcode 31))

/-- R85: the function code selects the operation, any other code none, and no rule reads it for STORE and RECALL. -/
def Obligations.FunctionCodeSelectsTheOperation : Prop :=
  (∀ (f : Funct) (op : AluOp), aluSel f = some op ↔
    (f = 0b100000#6 ∧ op = .add) ∨ (f = 0b100010#6 ∧ op = .sub) ∨ (f = 0b011000#6 ∧ op = .mul) ∨
    (f = 0b011010#6 ∧ op = .div)) ∧
  aluSel 0b100001#6 = none ∧
  (∀ (d : Decoded) (f : Funct), isStore d = true ∨ isRecall d = true →
    selectInstr { d with funct := f } = selectInstr d)

/-- 30_encoding.md section 3 (fields used and ignored; a derivation of the spec's own): words that agree on the fields
an instruction uses decode alike. -/
def Obligations.IgnoredFieldsDoNotChangeTheInstruction : Prop :=
  ∀ w v : Word, w.opcode = v.opcode →
    (w.opcode = 0b000001#6 → w.imm10 = v.imm10 → decodeInstr (symbolsOf w) = decodeInstr (symbolsOf v)) ∧
    (w.opcode = 0b100001#6 → decodeInstr (symbolsOf w) = decodeInstr (symbolsOf v)) ∧
    (w.opcode = 0b000000#6 → w.rs1 = v.rs1 → w.rs2 = v.rs2 → w.funct = v.funct →
      decodeInstr (symbolsOf w) = decodeInstr (symbolsOf v))

/-- R86: an input with a bad length or a bad symbol never reports `InvalidOpcode` or `InvalidFunction`. -/
def Obligations.DecoderChecksComeFirst : Prop :=
  ∀ (s : State) (I : List Char) (rest : List (List Char)), s.calls = I :: rest → Input.wellFormed I = false →
    ∃ t e, step s = .next t ∧ t.outcomes = s.outcomes ++ [.error e] ∧
      ((∃ n, e = .invalidLength n) ∨ ∃ f, e = .malformedBits f)

/-- 95_test_vectors.md sections 2.1 and 3: symbols the spec writes out decode to the instructions they stand for. -/
def Obligations.SampleWordsDecode : Prop :=
  decodeInstr "00000100000000000000000101000000".toList = .ok (.store 5) ∧
  decodeInstr "10000100000000000000000000000000".toList = .ok .recallLast ∧
  decodeInstr "00000000001000100000000000100000".toList = .ok (.add 1 2) ∧
  decodeInstr "00000000001000100000000000100010".toList = .ok (.sub 1 2) ∧
  decodeInstr "00000000001000100000000000011000".toList = .ok (.mul 1 2) ∧
  decodeInstr "00000000010000010000000000011010".toList = .ok (.div 2 1)

/-! ### Steps -/

/-- First clause, 43_dispatch.md section 1: a step on a pending call that decodes to `i` is `exec i` on the state from
which the call has been taken; that the pending calls are a list in State is the model's choice (log entry 1, DESIGN
CHOICE). Second clause, the model's choice and no rule of the spec: a table word placed with `withFetchWord` runs on the
state itself, since it is placed before every pending call (log entry 1, DESIGN CHOICE) and laid out as its symbols, most
significant bit first (log entry 14, DEDUCED). -/
def Obligations.StepRunsTheDecodedInstruction : Prop :=
  (∀ (s : State) (I : List Char) (rest : List (List Char)) (i : Instr), s.calls = I :: rest →
    decodeInstr I = .ok i → step s = exec i { s with calls := rest }) ∧
  (∀ (s : State) (nbits w : Nat) (i : Instr), decodeTableWord nbits w = some i →
    step (s.withFetchWord nbits w) = exec i s)

/-- The model's choice (log entry 11), DESIGN CHOICE: with no call pending a step leaves the state as it is. -/
def Obligations.StepWithoutACallIdles : Prop :=
  ∀ s : State, s.calls = [] → step s = .next s

/-- R11: every call produces exactly one outcome. -/
def Obligations.EveryCallGivesExactlyOneOutcome : Prop :=
  ∀ (s : State) (I : List Char) (rest : List (List Char)), s.calls = I :: rest →
    ∃ t o, step s = .next t ∧ t.outcomes = s.outcomes ++ [o] ∧ t.calls = rest

/-- 43_dispatch.md sections 2 and 3, for `k` up to the number of pending calls: whatever the calls are, the run does not
stop, and gives one outcome per call, after those before it. For greater `k` the run goes on, and ends in the very state
in which its calls left it (second clause), by the model's choice alone: a step with no call pending answers the same
state (log entry 11, DESIGN CHOICE). The spec has no stop state and ends a run when the caller stops calling (its own
decision D14). -/
def Obligations.EveryRunGivesOneOutcomePerCall : Prop :=
  ∀ (k : Nat) (s : State),
    (∃ t os, runSteps k s = .next t ∧ t.calls = s.calls.drop k ∧
      t.outcomes = s.outcomes ++ os ∧ os.length = min k s.calls.length) ∧
    (s.calls.length ≤ k → runSteps k s = runSteps s.calls.length s)

/-- 43_dispatch.md section 2 (in part a derivation of the spec's own): a call depends on the block's state alone. From
states that differ in their other pending calls and in their earlier outcomes, one call gives the same outcome and the
same state of the block. -/
def Obligations.ACallDependsOnTheBlockAlone : Prop :=
  ∀ (s s' : State) (I : List Char) (rest rest' : List (List Char)), s.calls = I :: rest → s'.calls = I :: rest' →
    s.SameBlock s' → ∃ t t' o, step s = .next t ∧ step s' = .next t' ∧ t.SameBlock t' ∧
      t.outcomes = s.outcomes ++ [o] ∧ t'.outcomes = s'.outcomes ++ [o]

/-! ### Errors -/

/-- R172: every opcode but three, 61 of the 64, is `InvalidOpcode`. -/
def Obligations.OtherOpcodesAreInvalidOpcode : Prop :=
  (∀ (s : State) (w : Word) (rest : List (List Char)), s.calls = symbolsOf w :: rest →
    w.opcode ≠ 0b000000#6 → w.opcode ≠ 0b000001#6 → w.opcode ≠ 0b100001#6 →
    ∃ t, step s = .next t ∧ t.outcomes = s.outcomes ++ [.error (.invalidOpcode w.opcode)] ∧ s.SameBlock t ∧
      t.calls = rest) ∧
  ((List.range 64).filter fun n => classify (BitVec.ofNat 6 n) = .invalid).length = 61

/-- 60_exceptions.md section 1, `InvalidFunction`: under opcode 000000 every function code but four, 60 of the 64, is
`InvalidFunction`, whatever the other fields hold, which is the spec's own decision D6. -/
def Obligations.OtherFunctionCodesAreInvalidFunction : Prop :=
  (∀ (s : State) (w : Word) (rest : List (List Char)), s.calls = symbolsOf w :: rest →
    w.opcode = 0b000000#6 → w.funct ≠ 0b100000#6 → w.funct ≠ 0b100010#6 → w.funct ≠ 0b011000#6 →
    w.funct ≠ 0b011010#6 →
    ∃ t, step s = .next t ∧ t.outcomes = s.outcomes ++ [.error (.invalidFunction w.funct)] ∧ s.SameBlock t ∧
      t.calls = rest) ∧
  ((List.range 64).filter fun n => aluSel (BitVec.ofNat 6 n) = none).length = 60

/-- 60_exceptions.md section 1, `RegisterOutOfRange`: ADD, SUB, MUL and DIV fail on a source index 22..31 and report
source_one when it is out of range, otherwise source_two, which is the spec's own decision D5. -/
def Obligations.SourceIndexOutOfRangeFails : Prop :=
  ∀ (op : AluOp) (rs1 rs2 : SrcIndex) (s : State),
    (22 ≤ rs1.toNat → ∃ t, exec (arithInstr op rs1 rs2) s = .next t ∧ s.ErrorResult (.registerOutOfRange rs1) t) ∧
    (rs1.toNat < 22 → 22 ≤ rs2.toNat →
      ∃ t, exec (arithInstr op rs1 rs2) s = .next t ∧ s.ErrorResult (.registerOutOfRange rs2) t)

/-- 60_exceptions.md section 1, `DivisionByZero`: DIV with a divisor register that reads 0, register 0 or one never
written among them, fails and writes nothing. That the outcome carries no value is the spec's own decision D23. -/
def Obligations.DivisionByZeroWritesNothing : Prop :=
  ∀ (i j : Fin 22) (s : State), s.number j = 0 →
    ∃ t, exec (.div (BitVec.ofNat 5 i.val) (BitVec.ofNat 5 j.val)) s = .next t ∧ s.ErrorResult .divisionByZero t

/-- R176, and that the failed RECALL changes nothing, which is the spec's own decision D10. -/
def Obligations.RecallWithNothingLeftIsNoHistory : Prop :=
  ∀ s : State,
    (s.hcount ≤ s.rdepth → ∃ t, exec .recallLast s = .next t ∧ s.ErrorResult .noHistory t) ∧
    (s.rdepth < s.hcount → ∀ t, exec .recallLast s = .next t → t.outcomes ≠ s.outcomes ++ [.error .noHistory])

/-- 60_exceptions.md section 2: of the errors that apply, the first in the order of precedence is the one reported, and
none is reported where none applies. The order past `InvalidLength` is the spec's own decisions D4, D5 and D6. -/
def Obligations.FirstErrorInPrecedenceIsReported : Prop :=
  ∀ (s : State) (I : List Char) (rest : List (List Char)), s.calls = I :: rest →
    ∃ t o, step s = .next t ∧ t.outcomes = s.outcomes ++ [o] ∧ ∀ e, o = .error e ↔ firstError I s = some e

/-- 43_dispatch.md section 1, commit (a derivation of the spec's own): no error outcome changes any state of the
block. -/
def Obligations.ErrorsChangeNoState : Prop :=
  ∀ (s t : State) (I : List Char) (rest : List (List Char)) (e : ExecError), s.calls = I :: rest →
    step s = .next t → t.outcomes = s.outcomes ++ [.error e] → s.SameBlock t

/-! ### STORE and the number bank -/

/-- 41_register_file.md section 3: STORE writes its payload to the register at the cursor, advances the cursor from 21
to 1, and changes nothing else. Every state with `nslot` in its range 1..21. -/
def Obligations.StoreWritesTheRegisterAtTheCursor : Prop :=
  ∀ (p : Payload) (s : State), s.nslot ≠ 0 →
    ∃ t, exec (.store p) s = .next t ∧ t.outcomes = s.outcomes ++ [.stored s.nslot p] ∧
      (∀ i, t.number i = if i = s.nslot then p else s.number i) ∧
      (∀ i, t.num.get i = if i = s.nslot then p else s.num.get i) ∧
      t.nslot.val = (if s.nslot.val = 21 then 1 else s.nslot.val + 1) ∧ s.SameHistory t ∧ t.calls = s.calls

/-- The model's choice (log entry 7), DESIGN CHOICE: in a state with `nslot` = 0, which the spec excludes and no run
reaches, STORE writes no register, since the hardwired register 0 discards the write; all else is as ever. -/
def Obligations.StoreAtSlotZeroWritesNoRegister : Prop :=
  ∀ (p : Payload) (s : State), s.nslot = 0 →
    ∃ t, exec (.store p) s = .next t ∧ t.outcomes = s.outcomes ++ [.stored 0 p] ∧ t.num = s.num ∧
      t.nslot = 1 ∧ s.SameHistory t ∧ t.calls = s.calls

/-- R102: the number bank is written exactly by STORE, at the cursor, with the payload, and the address is in 1..21. -/
def Obligations.NumberBankWrittenExactlyByStore : Prop :=
  ∀ (s : State) (I : List Char) (rest : List (List Char)), s.calls = I :: rest → s.Inv →
    (numWe I = true ↔ ∃ d, decode I = .ok d ∧ isStore d = true) ∧
    (1 ≤ (numWaddr s).val ∧ (numWaddr s).val ≤ 21 ∧ numWaddr s = s.nslot) ∧
    (∀ d, decode I = .ok d → numWdata I = d.imm10) ∧
    ∃ t, step s = .next t ∧
      ∀ i, t.number i = if numWe I = true ∧ i = numWaddr s then numWdata I else s.number i

/-- R103: the store cursor advances exactly when the number bank is written; the outcome is the slot used; after 21
advances slot 1 comes again, and slot 0 never. -/
def Obligations.StoreCursorAdvancesExactlyOnStore : Prop :=
  (∀ (s : State) (I : List Char) (rest : List (List Char)), s.calls = I :: rest →
    ∃ t, step s = .next t ∧
      (numWe I = true → t.nslot = (if s.nslot = 21 then 1 else s.nslot + 1) ∧
        t.outcomes = s.outcomes ++ [.stored s.nslot (numWdata I)]) ∧
      (numWe I = false → t.nslot = s.nslot)) ∧
  nextSlot^[21] 1 = 1 ∧ (∀ n, nextSlot n ≠ 0) ∧ ∀ n, nextSlot n = if n = 21 then 1 else n + 1

/-- R100: the read port of the number bank. -/
def Obligations.LoadNumberReadsTheBank : Prop :=
  ∀ (s : State) (a : SrcIndex),
    (22 ≤ a.toNat → s.loadNumber a = .error (.registerOutOfRange a)) ∧
    (a = 0 → s.loadNumber a = .ok 0) ∧
    (∀ i : Fin 22, i ≠ 0 → a.toNat = i.val → s.loadNumber a = .ok ((s.num.get i).toNat : Int)) ∧
    State.reset.loadNumber 5 = .ok 0 ∧ State.reset.loadNumber 22 = .error (.registerOutOfRange 22)

/-- R21: register 0 reads 0 in every state, and no step overwrites it. -/
def Obligations.RegisterZeroIsHardwired : Prop :=
  ∀ s : State, s.number 0 = 0 ∧ s.loadNumber 0 = .ok 0 ∧
    ∀ t, step s = .next t → t.num.get 0 = s.num.get 0

/-- 41_register_file.md section 3 and 70_reset_and_hazards.md section 3: any number of consecutive STOREs uses the slots
1..21 round and round from the cursor, and the registers then hold the last 21 payloads. -/
def Obligations.ConsecutiveStoresFillTheSlotsInTurn : Prop :=
  ∀ (ps : List Payload) (s : State), s.nslot ≠ 0 → s.calls = ps.map (fun p => encode (.store p)) →
    ∃ t, runSteps ps.length s = .next t ∧ t.nslot = slotAfter s.nslot ps.length ∧
      t.outcomes = s.outcomes ++ ps.mapIdx (fun k p => .stored (slotAfter s.nslot k) p) ∧
      (∀ k (h : k < ps.length), ps.length ≤ k + 21 → t.number (slotAfter s.nslot k) = ps[k]) ∧
      s.SameHistory t

/-! ### Arithmetic -/

/-- R121 to R124: the four operations of the ALU are exact, and a divide by 0 fails. -/
def Obligations.AluComputesExactly : Prop :=
  ∀ a b : Int, alu .add a b = .ok (a + b) ∧ alu .sub a b = .ok (a - b) ∧ alu .mul a b = .ok (a * b) ∧
    (b = 0 → alu .div a b = .error .divisionByZero) ∧ (b ≠ 0 → alu .div a b = .ok (aluTdiv a b)) ∧
    alu .div (-5) 2 = .ok (-2)

/-- R125: the quotient truncated toward zero, at every sign. -/
def Obligations.QuotientTruncatesTowardZero : Prop :=
  (∀ a b : Int, b ≠ 0 →
    aluTdiv a b = Int.sign a * Int.sign b * ((a.natAbs / b.natAbs : Nat) : Int) ∧
    (aluTdiv a b).natAbs * b.natAbs ≤ a.natAbs ∧ a.natAbs < ((aluTdiv a b).natAbs + 1) * b.natAbs) ∧
  aluTdiv 7 2 = 3 ∧ aluTdiv (-7) 2 = -3 ∧ aluTdiv 7 (-2) = -3 ∧ aluTdiv (-7) (-2) = 3 ∧ aluTdiv (-5) 2 = -2 ∧
  ∀ b : Int, b ≠ 0 → aluTdiv 0 b = 0

/-- 42_alu_arithmetic.md section 2, ADD: on every pair of registers of the bank the exact sum goes to the history ring,
and nothing else changes. -/
def Obligations.AddWritesTheSumToHistory : Prop :=
  ∀ (i j : Fin 22) (s : State),
    ∃ t, exec (.add (BitVec.ofNat 5 i.val) (BitVec.ofNat 5 j.val)) s = .next t ∧
      s.ArithResult .add (((s.number i).toNat : Int) + ((s.number j).toNat : Int)) t

/-- 42_alu_arithmetic.md section 2, SUB: on every pair of registers of the bank the exact difference, negative where the
second is greater, goes to the history ring, and nothing else changes. -/
def Obligations.SubWritesTheDifferenceToHistory : Prop :=
  ∀ (i j : Fin 22) (s : State),
    ∃ t, exec (.sub (BitVec.ofNat 5 i.val) (BitVec.ofNat 5 j.val)) s = .next t ∧
      s.ArithResult .sub (((s.number i).toNat : Int) - ((s.number j).toNat : Int)) t

/-- 42_alu_arithmetic.md section 2, MUL: on every pair of registers of the bank the whole product goes to the history
ring, and nothing else changes. -/
def Obligations.MulWritesTheProductToHistory : Prop :=
  ∀ (i j : Fin 22) (s : State),
    ∃ t, exec (.mul (BitVec.ofNat 5 i.val) (BitVec.ofNat 5 j.val)) s = .next t ∧
      s.ArithResult .mul (((s.number i).toNat : Int) * ((s.number j).toNat : Int)) t

/-- 42_alu_arithmetic.md section 2, DIV: on every pair of registers of the bank whose second is not 0 the quotient
rounded down (both operands are non-negative) goes to the history ring, and nothing else changes. -/
def Obligations.DivWritesTheQuotientToHistory : Prop :=
  ∀ (i j : Fin 22) (s : State), s.number j ≠ 0 →
    ∃ t, exec (.div (BitVec.ofNat 5 i.val) (BitVec.ofNat 5 j.val)) s = .next t ∧
      s.ArithResult .div (((s.number i).toNat / (s.number j).toNat : Nat) : Int) t

/-- 42_alu_arithmetic.md section 1, datapath ranges (a derivation of the spec's own): the range of each operation's
results, from any state. -/
def Obligations.ResultsStayInTheirRanges : Prop :=
  ∀ (s t : State) (I : List Char) (rest : List (List Char)) (op : AluOp) (v : Int), s.calls = I :: rest →
    step s = .next t → t.outcomes = s.outcomes ++ [.result op v] →
    match op with
    | .add => 0 ≤ v ∧ v ≤ 2046
    | .sub => -1023 ≤ v ∧ v ≤ 1023
    | .mul => 0 ≤ v ∧ v ≤ 1046529
    | .div => 0 ≤ v ∧ v ≤ 1023

/-- 00_scope.md section 3 (the spec's own decision D12): at every RESULT_W of 21 bits or more, the two's complement
reading of a history slot is the exact integer the model holds. -/
def Obligations.EveryResultWidthHoldsTheHistory : Prop :=
  ∀ (s : State) (w : Nat) (j : Fin 10), s.Inv → Config.minResultW ≤ w →
    (BitVec.ofInt w (s.histAt j)).toInt = s.histAt j

/-! ### RECALL and the history ring -/

/-- 41_register_file.md section 5: RECALL with a value left in the walk returns the slot `(hwp - (rdepth + 1)) mod 10`,
adds one to `rdepth` and changes nothing else. -/
def Obligations.RecallReturnsTheNextOlderValue : Prop :=
  ∀ s : State, s.rdepth < s.hcount →
    ∃ (j : Fin 10) (t : State), (j.val : Int) = ((s.hwp.val : Int) - ((s.rdepth : Int) + 1)) % 10 ∧
      exec .recallLast s = .next t ∧ t.outcomes = s.outcomes ++ [.recalled (s.histAt j)] ∧
      t.rdepth = s.rdepth + 1 ∧ t.hist = s.hist ∧ t.hwp = s.hwp ∧ t.hcount = s.hcount ∧ s.SameNumbers t ∧
      t.calls = s.calls

/-- R105 and R106: the history ring is written exactly when an arithmetic instruction completes without error, at the
write cursor, with its result. -/
def Obligations.HistoryWrittenExactlyWhenEnabled : Prop :=
  ∀ (s : State) (I : List Char) (rest : List (List Char)), s.calls = I :: rest →
    (histWe I s = true ↔ ∃ d a b sel, decode I = .ok d ∧ d.opcode = 0b000000#6 ∧ aluSel d.funct = some sel ∧
      s.loadNumber d.rs1 = .ok a ∧ s.loadNumber d.rs2 = .ok b ∧ ¬ (sel = .div ∧ b = 0)) ∧
    (∀ d a b sel, decode I = .ok d → aluSel d.funct = some sel → s.loadNumber d.rs1 = .ok a →
      s.loadNumber d.rs2 = .ok b → histWdata I s = aluRes sel a b) ∧
    histWaddr s = s.hwp ∧
    ∃ t o, step s = .next t ∧ t.outcomes = s.outcomes ++ [o] ∧
      (histWe I s = true ↔ ∃ op, o = .result op (histWdata I s)) ∧
      (histWe I s = true ↔ ∃ op v, o = .result op v) ∧
      (∀ j, t.histAt j = if histWe I s = true ∧ j = s.hwp then histWdata I s else s.histAt j) ∧
      (histWe I s = false → t.hwp = s.hwp ∧ t.hcount = s.hcount)

/-- 41_register_file.md sections 4 and 5: the ring with its cursors is the list of the 10 newest results, newest first
(`history`), and of those the walk has still to return (`walk`). A result is put before the list and restarts the walk; a
recalled value is the walk's next; every other step leaves both. That at most 10 are kept, and the cursors that encode
it, are the spec's own (C2, D9). -/
def Obligations.HistoryRingIsTheTenNewestResults : Prop :=
  ∀ (s t : State) (I : List Char) (rest : List (List Char)), s.calls = I :: rest → s.Inv → step s = .next t →
    (∃ op v, t.outcomes = s.outcomes ++ [.result op v] ∧ t.history = (v :: s.history).take 10 ∧
      t.walk = t.history) ∨
    (∃ v, t.outcomes = s.outcomes ++ [.recalled v] ∧ t.history = s.history ∧ s.walk = v :: t.walk) ∨
    ((∃ o, t.outcomes = s.outcomes ++ [o] ∧ (∀ op v, o ≠ .result op v) ∧ (∀ v, o ≠ .recalled v) ∧
      (o = .error .noHistory → s.walk = [])) ∧ t.history = s.history ∧ t.walk = s.walk)

/-- 41_register_file.md section 5 (R109's corner cases and R110; in part decisions of the spec's own, D9 and D10): any
number of consecutive RECALLs returns what is left of the walk, newest first, and then `NoHistory` every time. -/
def Obligations.ConsecutiveRecallsReturnTheWalk : Prop :=
  ∀ (k : Nat) (s : State), s.Inv → s.calls = List.replicate k (encode .recallLast) →
    ∃ t, runSteps k s = .next t ∧
      t.outcomes = s.outcomes ++ (s.walk.take k).map .recalled ++
        List.replicate (k - s.walk.length) (.error .noHistory) ∧
      s.walk.length = s.hcount - s.rdepth ∧ t.rdepth = min (s.rdepth + k) s.hcount ∧
      t.hist = s.hist ∧ t.hwp = s.hwp ∧ t.hcount = s.hcount ∧ s.SameNumbers t

/-- 41_register_file.md section 6 (in part a derivation of the spec's own): a call writes at most one bank. STORE leaves
the history side, an arithmetic instruction the number side, a RECALL all but `rdepth`, an error everything. -/
def Obligations.ACallWritesAtMostOneBank : Prop :=
  ∀ (s : State) (I : List Char) (rest : List (List Char)), s.calls = I :: rest →
    ∃ t o, step s = .next t ∧ t.outcomes = s.outcomes ++ [o] ∧
      (numWe I && histWe I s) = false ∧
      match o with
      | .stored _ _ => s.SameHistory t
      | .result _ _ => s.SameNumbers t
      | .recalled _ => s.SameNumbers t ∧ t.hist = s.hist ∧ t.hwp = s.hwp ∧ t.hcount = s.hcount
      | .error _ => s.SameBlock t

/-- 70_reset_and_hazards.md section 3: each instruction sees the writes of those before it. After a STORE its register
reads the payload, and a RECALL right after an arithmetic instruction returns its result. -/
def Obligations.LaterInstructionsSeeEarlierWrites : Prop :=
  (∀ (p : Payload) (s : State), s.nslot ≠ 0 → ∃ t, exec (.store p) s = .next t ∧
    t.loadNumber (BitVec.ofNat 5 s.nslot.val) = .ok (p.toNat : Int)) ∧
  (∀ (op : AluOp) (rs1 rs2 : SrcIndex) (v : Int) (s t : State), exec (arithInstr op rs1 rs2) s = .next t →
    t.outcomes = s.outcomes ++ [.result op v] →
    ∃ u, exec .recallLast t = .next u ∧ u.outcomes = t.outcomes ++ [.recalled v])

/-! ### Reset, the invariant and the second design -/

/-- R190: construction, with any label, leaves both banks all zero, every history slot absent and the cursors at their
values. -/
def Obligations.ConstructionLeavesTheResetState : Prop :=
  ∀ label : String,
    (∀ i, (State.init label).number i = 0) ∧ (∀ i, (State.init label).num.get i = 0) ∧
    (∀ j, (State.init label).histAt j = 0) ∧ (State.init label).history = [] ∧
    (State.init label).nslot = 1 ∧ (State.init label).hwp = 0 ∧ (State.init label).hcount = 0 ∧
    (State.init label).rdepth = 0

/-- R182: the snapshot of the number bank. -/
def Obligations.NumberSnapshotShowsTheBank : Prop :=
  ∀ s : State, s.snapNumbers.length = 22 ∧ (∀ i : Fin 22, s.snapNumbers[i.val]? = some (s.number i)) ∧
    s.snapNumbers[0]? = some 0

/-- 60_exceptions.md section 5 (the spec's own decision D20): the history snapshot shows the ten value fields, absent
slots among them as the zero of reset. -/
def Obligations.HistorySnapshotShowsTheValueFields : Prop :=
  ∀ s : State, s.snapHistory.length = 10 ∧ (∀ j : Fin 10, s.snapHistory[j.val]? = some (s.histAt j)) ∧
    (s.Inv → ∀ j : Fin 10, s.hcount ≤ j.val → s.snapHistory[j.val]? = some 0)

/-- The state after reset meets the invariant (10_state.md section 5). -/
def Obligations.ResetMeetsTheInvariant : Prop := State.reset.Inv

/-- 10_state.md sections 1 to 3 and 42_alu_arithmetic.md section 1: every step from a state that meets the invariant
gives one that meets it. -/
def Obligations.EveryStepKeepsTheInvariant : Prop :=
  ∀ s t : State, s.Inv → step s = .next t → t.Inv

/-- 70_reset_and_hazards.md section 4: the clocked realisation, which computes write enables and data as signals and
commits them at one clock edge, gives the state and the outcome of the step, from every state and on every input. -/
def Obligations.ClockedRealisationEqualsTheStep : Prop :=
  ∀ (s : State) (I : List Char) (rest : List (List Char)), s.calls = I :: rest →
    step s = .next (clockEdge I { s with calls := rest })
end

