-- ==== Sys2Proof/Laws/Decode.lean ====
section
/-! SUPPORT. What the decoder reads from symbols, and what the encoder writes. -/

namespace Sys2Proof

/-! ### Symbols that spell a number -/

@[simp] theorem natSymbols_length (n w : Nat) : (natSymbols n w).length = n := by simp [natSymbols]

theorem natSymbols_succ (n w : Nat) :
    natSymbols (n + 1) w = (if w.testBit n then '1' else '0') :: natSymbols n w := by
  simp only [natSymbols, List.range_succ_eq_map, List.map_cons, List.map_map]
  congr 1
  refine List.map_congr_left fun i _ => ?_
  simp only [Function.comp_apply]
  rw [show n + 1 - 1 - i.succ = n - 1 - i by omega]

theorem natSymbols_isBinary (n w : Nat) : ∀ c ∈ natSymbols n w, isBinary c = true := by
  intro c hc
  simp only [natSymbols, List.mem_map] at hc
  obtain ⟨i, -, rfl⟩ := hc
  split <;> rfl

theorem val_natSymbols (n w : Nat) : val (natSymbols n w) = w % 2 ^ n := by
  induction n with
  | zero => simp [natSymbols, val, Nat.mod_one]
  | succ n ih =>
    rw [natSymbols_succ, val, natSymbols_length, ih, Nat.mod_pow_succ, Nat.testBit_eq_decide_div_mod_eq]
    have := Nat.mod_two_eq_zero_or_one (w / 2 ^ n)
    rcases this with h | h <;> simp [digit, h, add_comm]

theorem natSymbols_drop (n k w : Nat) : (natSymbols n w).drop k = natSymbols (n - k) w := by
  induction k generalizing n with
  | zero => simp
  | succ k ih =>
    cases n with
    | zero => simp [natSymbols]
    | succ n => rw [natSymbols_succ, List.drop_succ_cons, ih, Nat.succ_sub_succ]

theorem natSymbols_take (n k w : Nat) (h : k ≤ n) :
    (natSymbols n w).take k = natSymbols k (w >>> (n - k)) := by
  refine List.ext_getElem (by simp [h]) fun i h1 h2 => ?_
  have hi : i < k := by simpa using h2
  simp only [natSymbols, List.getElem_take, List.getElem_map, List.getElem_range, Nat.testBit_shiftRight]
  rw [show n - k + (k - 1 - i) = n - 1 - i by omega]

theorem slice_natSymbols (n a b w : Nat) (hab : a ≤ b) (hbn : b ≤ n) :
    slice (natSymbols n w) a b = natSymbols (b - a) (w >>> (n - b)) := by
  rw [slice, natSymbols_drop, natSymbols_take _ _ _ (by omega)]
  congr 2
  omega

theorem val_slice_natSymbols (n a b w : Nat) (hab : a ≤ b) (hbn : b ≤ n) :
    val (slice (natSymbols n w) a b) = w / 2 ^ (n - b) % 2 ^ (b - a) := by
  rw [slice_natSymbols n a b w hab hbn, val_natSymbols, Nat.shiftRight_eq_div_pow]

/-- The symbols of a word spell its bits, however many of them a field takes. -/
theorem ofNat_val_slice_symbolsOf (w : Word) (a b : Nat) (hab : a ≤ b) (hb : b ≤ 32) :
    BitVec.ofNat (b - a) (val (slice (symbolsOf w) a b)) = w.extractLsb' (32 - b) (b - a) := by
  rw [symbolsOf, val_slice_natSymbols 32 a b _ hab hb]
  apply BitVec.eq_of_toNat_eq
  rw [BitVec.toNat_ofNat, BitVec.extractLsb'_toNat, Nat.mod_mod, Nat.shiftRight_eq_div_pow]

@[simp] theorem symbolsOf_length (w : Word) : (symbolsOf w).length = 32 := natSymbols_length 32 _

theorem symbolsOf_isBinary (w : Word) : ∀ c ∈ symbolsOf w, isBinary c = true := natSymbols_isBinary 32 _

/-- A sequence of binary symbols is what its value spells. -/
theorem natSymbols_val (I : List Char) (h : ∀ c ∈ I, isBinary c = true) : natSymbols I.length (val I) = I := by
  induction I with
  | nil => rfl
  | cons c cs ih =>
    have hlt : ∀ J : List Char, val J < 2 ^ J.length := by
      intro J
      induction J with
      | nil => simp [val]
      | cons d ds ihd =>
        have hd : digit d ≤ 1 := by unfold digit; split <;> omega
        have := Nat.mul_le_mul_right (2 ^ ds.length) hd
        simp only [val, List.length_cons, pow_succ]
        omega
    have hcs := ih fun d hd => h d (List.mem_cons_of_mem c hd)
    have bit (j : Nat) := Nat.testBit_two_pow_mul_add (digit c) (hlt cs) j
    have hmod : natSymbols cs.length (2 ^ cs.length * digit c + val cs) = natSymbols cs.length (val cs) := by
      refine List.map_congr_left fun i hi => ?_
      have hi' : i < cs.length := by simpa using hi
      simp only [bit, if_pos (show cs.length - 1 - i < cs.length by omega)]
    rw [List.length_cons, val, mul_comm, natSymbols_succ, hmod, hcs, bit, if_neg (lt_irrefl _), Nat.sub_self]
    have hc : isBinary c = true := h c (List.mem_cons_self ..)
    congr 1
    simp only [isBinary, Bool.or_eq_true, beq_iff_eq] at hc
    rcases hc with rfl | rfl <;> rfl

/-! ### The fields of an assembled word -/

section Assemble
variable (opcode : Opcode) (rs1 rs2 : SrcIndex) (imm10 : Payload) (funct : Funct)

@[simp] theorem assemble_opcode : (assemble opcode rs1 rs2 imm10 funct).opcode = opcode := by
  apply BitVec.eq_of_getLsbD_eq
  intro i hi
  simp only [Word.opcode, assemble, BitVec.getLsbD_extractLsb', BitVec.getLsbD_append, hi, decide_true, Bool.true_and]
  grind

@[simp] theorem assemble_rs1 : (assemble opcode rs1 rs2 imm10 funct).rs1 = rs1 := by
  apply BitVec.eq_of_getLsbD_eq
  intro i hi
  simp only [Word.rs1, assemble, BitVec.getLsbD_extractLsb', BitVec.getLsbD_append, hi, decide_true, Bool.true_and]
  grind

@[simp] theorem assemble_rs2 : (assemble opcode rs1 rs2 imm10 funct).rs2 = rs2 := by
  apply BitVec.eq_of_getLsbD_eq
  intro i hi
  simp only [Word.rs2, assemble, BitVec.getLsbD_extractLsb', BitVec.getLsbD_append, hi, decide_true, Bool.true_and]
  grind

@[simp] theorem assemble_imm10 : (assemble opcode rs1 rs2 imm10 funct).imm10 = imm10 := by
  apply BitVec.eq_of_getLsbD_eq
  intro i hi
  simp only [Word.imm10, assemble, BitVec.getLsbD_extractLsb', BitVec.getLsbD_append, hi, decide_true, Bool.true_and]
  grind

@[simp] theorem assemble_funct : (assemble opcode rs1 rs2 imm10 funct).funct = funct := by
  apply BitVec.eq_of_getLsbD_eq
  intro i hi
  simp only [Word.funct, assemble, BitVec.getLsbD_extractLsb', BitVec.getLsbD_append, hi, decide_true, Bool.true_and]
  grind

end Assemble

/-- A word is assembled from its own fields. -/
theorem assemble_fields (w : Word) : assemble w.opcode w.rs1 w.rs2 w.imm10 w.funct = w := by
  apply BitVec.eq_of_getLsbD_eq
  intro i hi
  simp only [Word.opcode, Word.rs1, Word.rs2, Word.imm10, Word.funct, assemble, BitVec.getLsbD_extractLsb',
    BitVec.getLsbD_append]
  grind

/-- A mask acts on an assembled word field by field. -/
theorem assemble_and (o o' : Opcode) (a a' b b' : SrcIndex) (p p' : Payload) (f f' : Funct) :
    assemble o a b p f &&& assemble o' a' b' p' f' =
      assemble (o &&& o') (a &&& a') (b &&& b') (p &&& p') (f &&& f') := by
  have append_and (n m : Nat) (x x' : BitVec n) (y y' : BitVec m) :
      (x ++ y) &&& (x' ++ y') = (x &&& x') ++ (y &&& y') := BitVec.and_append.symm ▸ rfl
  unfold assemble
  erw [append_and, append_and, append_and, append_and]

/-! ### The fields of a word's symbols -/

theorem ofNat_val_field (w : Word) (a b n : Nat) (hn : b - a = n) (hab : a ≤ b) (hb : b ≤ 32) :
    BitVec.ofNat n (val (slice (symbolsOf w) a b)) = w.extractLsb' (32 - b) n := by
  subst hn; exact ofNat_val_slice_symbolsOf w a b hab hb

/-- The symbols of a word are sliced into the fields of the word view. -/
theorem sliceFields_symbolsOf (w : Word) :
    sliceFields (symbolsOf w) = ⟨w.opcode, w.rs1, w.rs2, w.imm10, w.funct⟩ := by
  simp only [sliceFields, fieldSymbols, Field.bounds, Word.opcode, Word.rs1, Word.rs2, Word.imm10, Word.funct]
  rw [ofNat_val_field w 0 6 6 rfl (by omega) (by omega), ofNat_val_field w 6 11 5 rfl (by omega) (by omega),
    ofNat_val_field w 11 16 5 rfl (by omega) (by omega), ofNat_val_field w 16 26 10 rfl (by omega) (by omega),
    ofNat_val_field w 26 32 6 rfl (by omega) (by omega)]

/-- A well-formed input is 32 binary symbols. -/
theorem wellFormed_iff (I : List Char) :
    Input.wellFormed I = true ↔ I.length = 32 ∧ ∀ c ∈ I, isBinary c = true := by
  simp [Input.wellFormed, Input.lengthOk, Input.symbolsOk, isBinary]

/-- A well-formed input is the symbols of its word. -/
theorem symbolsOf_wordOf {I : List Char} (h : Input.wellFormed I = true) : symbolsOf (wordOf I) = I := by
  rw [wellFormed_iff] at h
  have hs := natSymbols_val I h.2
  have hv : val I < 2 ^ 32 := by
    have := val_natSymbols I.length (val I)
    rw [hs, h.1] at this
    omega
  rw [symbolsOf, wordOf, BitVec.toNat_ofNat, Nat.mod_eq_of_lt hv, ← h.1, hs]

/-! ### The decoder's checks -/

/-- The symbol check passes when every symbol is binary. -/
theorem firstBadField_eq_none {I : List Char} (h : ∀ c ∈ I, isBinary c = true) : firstBadField I = none := by
  simp only [firstBadField, List.find?_eq_none, Bool.not_eq_true', Bool.not_eq_false]
  intro f _
  simp only [fieldOk, List.all_eq_true, fieldSymbols, slice]
  exact fun c hc => h c (List.mem_of_mem_drop (List.mem_of_mem_take hc))

/-- All that `decode` can do. -/
theorem decode_cases (I : List Char) :
    (I.length ≠ 32 ∧ decode I = .error (.invalidLength I.length)) ∨
    (∃ f, I.length = 32 ∧ firstBadField I = some f ∧ decode I = .error (.malformedBits f)) ∨
    (I.length = 32 ∧ firstBadField I = none ∧ decode I = .ok (sliceFields I)) := by
  by_cases h : I.length = 32
  · cases hf : firstBadField I with
    | none => exact .inr (.inr ⟨h, rfl, by simp [decode, h, hf]⟩)
    | some f => exact .inr (.inl ⟨f, h, rfl, by simp [decode, h, hf]⟩)
  · exact .inl ⟨h, by simp [decode, h]⟩

/-- All that `selectInstr` can do. -/
theorem selectInstr_cases (d : Decoded) :
    (classify d.opcode = .store ∧ selectInstr d = .ok (.store d.imm10)) ∨
    (classify d.opcode = .recallLast ∧ selectInstr d = .ok .recallLast) ∨
    (classify d.opcode = .invalid ∧ selectInstr d = .error (.invalidOpcode d.opcode)) ∨
    (classify d.opcode = .arith ∧ aluSel d.funct = none ∧ selectInstr d = .error (.invalidFunction d.funct)) ∨
    (classify d.opcode = .arith ∧ ((aluSel d.funct = some .add ∧ selectInstr d = .ok (.add d.rs1 d.rs2)) ∨
      (aluSel d.funct = some .sub ∧ selectInstr d = .ok (.sub d.rs1 d.rs2)) ∨
      (aluSel d.funct = some .mul ∧ selectInstr d = .ok (.mul d.rs1 d.rs2)) ∨
      (aluSel d.funct = some .div ∧ selectInstr d = .ok (.div d.rs1 d.rs2)))) := by
  cases hc : classify d.opcode <;> simp only [selectInstr, hc] <;> try simp
  rcases aluSel d.funct with _ | op
  · simp
  · cases op <;> simp

/-- The record's opcode and its class. -/
theorem classify_eq (o : Opcode) :
    (classify o = .arith ↔ o = 0b000000#6) ∧ (classify o = .store ↔ o = 0b000001#6) ∧
    (classify o = .recallLast ↔ o = 0b100001#6) ∧
    (classify o = .invalid ↔ o ≠ 0b000000#6 ∧ o ≠ 0b000001#6 ∧ o ≠ 0b100001#6) := by
  revert o; decide

end Sys2Proof
end

