-- ==== Sys2Proof/Laws/State.lean ====
section
/-! SUPPORT. One lemma per field per named update of the state, so that no proof unfolds a record update. -/

namespace Sys2Proof.Machine

variable (s : State)

/-! ### writeNumber -/

@[simp] theorem State.writeNumber_num (i : Fin 22) (v : Payload) : (s.writeNumber i v).num = if i = 0 then s.num else s.num.set i.val v i.isLt := rfl
@[simp] theorem State.writeNumber_hist (i : Fin 22) (v : Payload) : (s.writeNumber i v).hist = s.hist := rfl
@[simp] theorem State.writeNumber_nslot (i : Fin 22) (v : Payload) : (s.writeNumber i v).nslot = s.nslot := rfl
@[simp] theorem State.writeNumber_hwp (i : Fin 22) (v : Payload) : (s.writeNumber i v).hwp = s.hwp := rfl
@[simp] theorem State.writeNumber_hcount (i : Fin 22) (v : Payload) : (s.writeNumber i v).hcount = s.hcount := rfl
@[simp] theorem State.writeNumber_rdepth (i : Fin 22) (v : Payload) : (s.writeNumber i v).rdepth = s.rdepth := rfl
@[simp] theorem State.writeNumber_calls (i : Fin 22) (v : Payload) : (s.writeNumber i v).calls = s.calls := rfl
@[simp] theorem State.writeNumber_outcomes (i : Fin 22) (v : Payload) : (s.writeNumber i v).outcomes = s.outcomes := rfl

/-! ### storeNumber -/

@[simp] theorem State.storeNumber_num (v : Payload) : (s.storeNumber v).num = (s.writeNumber s.nslot v).num := rfl
@[simp] theorem State.storeNumber_hist (v : Payload) : (s.storeNumber v).hist = s.hist := rfl
@[simp] theorem State.storeNumber_nslot (v : Payload) : (s.storeNumber v).nslot = nextSlot s.nslot := rfl
@[simp] theorem State.storeNumber_hwp (v : Payload) : (s.storeNumber v).hwp = s.hwp := rfl
@[simp] theorem State.storeNumber_hcount (v : Payload) : (s.storeNumber v).hcount = s.hcount := rfl
@[simp] theorem State.storeNumber_rdepth (v : Payload) : (s.storeNumber v).rdepth = s.rdepth := rfl
@[simp] theorem State.storeNumber_calls (v : Payload) : (s.storeNumber v).calls = s.calls := rfl
@[simp] theorem State.storeNumber_outcomes (v : Payload) : (s.storeNumber v).outcomes = s.outcomes := rfl

/-! ### storeHistory -/

@[simp] theorem State.storeHistory_num (v : Int) : (s.storeHistory v).num = s.num := rfl
@[simp] theorem State.storeHistory_hist (v : Int) : (s.storeHistory v).hist = s.hist.set s.hwp.val v s.hwp.isLt := rfl
@[simp] theorem State.storeHistory_nslot (v : Int) : (s.storeHistory v).nslot = s.nslot := rfl
@[simp] theorem State.storeHistory_hwp (v : Int) : (s.storeHistory v).hwp = nextHwp s.hwp := rfl
@[simp] theorem State.storeHistory_hcount (v : Int) : (s.storeHistory v).hcount = min (s.hcount + 1) 10 := rfl
@[simp] theorem State.storeHistory_rdepth (v : Int) : (s.storeHistory v).rdepth = 0 := rfl
@[simp] theorem State.storeHistory_calls (v : Int) : (s.storeHistory v).calls = s.calls := rfl
@[simp] theorem State.storeHistory_outcomes (v : Int) : (s.storeHistory v).outcomes = s.outcomes := rfl

/-! ### advanceWalk -/

@[simp] theorem State.advanceWalk_num : (s.advanceWalk).num = s.num := rfl
@[simp] theorem State.advanceWalk_hist : (s.advanceWalk).hist = s.hist := rfl
@[simp] theorem State.advanceWalk_nslot : (s.advanceWalk).nslot = s.nslot := rfl
@[simp] theorem State.advanceWalk_hwp : (s.advanceWalk).hwp = s.hwp := rfl
@[simp] theorem State.advanceWalk_hcount : (s.advanceWalk).hcount = s.hcount := rfl
@[simp] theorem State.advanceWalk_rdepth : (s.advanceWalk).rdepth = s.rdepth + 1 := rfl
@[simp] theorem State.advanceWalk_calls : (s.advanceWalk).calls = s.calls := rfl
@[simp] theorem State.advanceWalk_outcomes : (s.advanceWalk).outcomes = s.outcomes := rfl

/-! ### report -/

@[simp] theorem State.report_num (o : ExecOutcome) : (s.report o).num = s.num := rfl
@[simp] theorem State.report_hist (o : ExecOutcome) : (s.report o).hist = s.hist := rfl
@[simp] theorem State.report_nslot (o : ExecOutcome) : (s.report o).nslot = s.nslot := rfl
@[simp] theorem State.report_hwp (o : ExecOutcome) : (s.report o).hwp = s.hwp := rfl
@[simp] theorem State.report_hcount (o : ExecOutcome) : (s.report o).hcount = s.hcount := rfl
@[simp] theorem State.report_rdepth (o : ExecOutcome) : (s.report o).rdepth = s.rdepth := rfl
@[simp] theorem State.report_calls (o : ExecOutcome) : (s.report o).calls = s.calls := rfl
@[simp] theorem State.report_outcomes (o : ExecOutcome) : (s.report o).outcomes = s.outcomes ++ [o] := rfl

/-! ### call -/

@[simp] theorem State.call_num (I : List Char) : (s.call I).num = s.num := rfl
@[simp] theorem State.call_hist (I : List Char) : (s.call I).hist = s.hist := rfl
@[simp] theorem State.call_nslot (I : List Char) : (s.call I).nslot = s.nslot := rfl
@[simp] theorem State.call_hwp (I : List Char) : (s.call I).hwp = s.hwp := rfl
@[simp] theorem State.call_hcount (I : List Char) : (s.call I).hcount = s.hcount := rfl
@[simp] theorem State.call_rdepth (I : List Char) : (s.call I).rdepth = s.rdepth := rfl
@[simp] theorem State.call_calls (I : List Char) : (s.call I).calls = s.calls ++ [I] := rfl
@[simp] theorem State.call_outcomes (I : List Char) : (s.call I).outcomes = s.outcomes := rfl

/-! ### callFirst -/

@[simp] theorem State.callFirst_num (I : List Char) : (s.callFirst I).num = s.num := rfl
@[simp] theorem State.callFirst_hist (I : List Char) : (s.callFirst I).hist = s.hist := rfl
@[simp] theorem State.callFirst_nslot (I : List Char) : (s.callFirst I).nslot = s.nslot := rfl
@[simp] theorem State.callFirst_hwp (I : List Char) : (s.callFirst I).hwp = s.hwp := rfl
@[simp] theorem State.callFirst_hcount (I : List Char) : (s.callFirst I).hcount = s.hcount := rfl
@[simp] theorem State.callFirst_rdepth (I : List Char) : (s.callFirst I).rdepth = s.rdepth := rfl
@[simp] theorem State.callFirst_calls (I : List Char) : (s.callFirst I).calls = I :: s.calls := rfl
@[simp] theorem State.callFirst_outcomes (I : List Char) : (s.callFirst I).outcomes = s.outcomes := rfl

end Sys2Proof.Machine
end

