-- ==== Sys2Proof/Laws/Ops.lean ====
section
/-! SUPPORT. What each shared operation can do, said once. -/

namespace Sys2Proof.Machine

/-! ### The number bank -/

@[simp] theorem State.number_zero (s : State) : s.number 0 = 0 := rfl

theorem State.number_of_ne_zero (s : State) {i : Fin 22} (h : i ≠ 0) : s.number i = s.num.get i := if_neg h

/-- A register reads its last write; register 0 takes none. -/
theorem State.number_writeNumber (s : State) (i j : Fin 22) (v : Payload) :
    (s.writeNumber i v).number j = if j = i ∧ i ≠ 0 then v else s.number j := by
  by_cases hj : j = 0
  · subst hj
    have : ¬ ((0 : Fin 22) = i ∧ i ≠ 0) := fun h => h.2 h.1.symm
    rw [if_neg this]; rfl
  · rw [State.number_of_ne_zero _ hj, State.number_of_ne_zero _ hj, State.writeNumber_num]
    by_cases hi : i = 0
    · subst hi; simp
    · rw [if_neg hi]
      by_cases hij : j = i
      · subst hij; simp [Vector.get_eq_getElem, hi]
      · have : i.val ≠ j.val := fun h => hij (Fin.ext h.symm)
        simp [Vector.get_eq_getElem, this, hij]

theorem State.storeNumber_number (s : State) (v : Payload) (j : Fin 22) :
    (s.storeNumber v).number j = if j = s.nslot ∧ s.nslot ≠ 0 then v else s.number j :=
  s.number_writeNumber s.nslot j v

/-- Reads of the number bank see the bank alone. -/
theorem State.number_congr {s t : State} (h : t.num = s.num) (i : Fin 22) : t.number i = s.number i := by
  simp only [State.number, h]

theorem State.loadNumber_of_lt (s : State) (a : SrcIndex) (h : a.toNat < 22) :
    s.loadNumber a = .ok ((s.number ⟨a.toNat, h⟩).toNat : Int) := dif_pos h

theorem State.loadNumber_of_ge (s : State) (a : SrcIndex) (h : 22 ≤ a.toNat) :
    s.loadNumber a = .error (.registerOutOfRange a) := dif_neg (by omega)

/-- Every register of the bank can be loaded. -/
theorem State.loadNumber_ofNat (s : State) (i : Fin 22) :
    s.loadNumber (BitVec.ofNat 5 i.val) = .ok ((s.number i).toNat : Int) := by
  have h : (BitVec.ofNat 5 i.val).toNat = i.val := by simp; omega
  rw [s.loadNumber_of_lt _ (by omega)]
  simp [h]

/-- A load that answers a value answers one of 10 bits, for an index in the bank. -/
theorem State.loadNumber_eq_ok {s : State} {a : SrcIndex} {v : Int} (h : s.loadNumber a = .ok v) :
    a.toNat < 22 ∧ 0 ≤ v ∧ v ≤ 1023 := by
  by_cases ha : a.toNat < 22
  · rw [s.loadNumber_of_lt a ha, Except.ok.injEq] at h
    have := (s.number ⟨a.toNat, ha⟩).isLt
    omega
  · rw [s.loadNumber_of_ge a (by omega)] at h; cases h

/-- The cursor's next slot, as a number. -/
theorem nextSlot_val (n : Fin 22) : (nextSlot n).val = if n.val = 21 then 1 else n.val + 1 := by
  revert n; decide

theorem nextSlot_ne_zero (n : Fin 22) : nextSlot n ≠ 0 := by revert n; decide

/-! ### The history ring -/

theorem State.histAt_storeHistory (s : State) (v : Int) (j : Fin 10) :
    (s.storeHistory v).histAt j = if j = s.hwp then v else s.histAt j := by
  simp only [State.histAt, State.storeHistory_hist]
  by_cases h : j = s.hwp
  · subst h; simp [Vector.get_eq_getElem]
  · have : s.hwp.val ≠ j.val := fun e => h (Fin.ext e.symm)
    simp [Vector.get_eq_getElem, this, h]

theorem State.histAt_congr {s t : State} (h : t.hist = s.hist) (j : Fin 10) : t.histAt j = s.histAt j := by
  simp only [State.histAt, h]

theorem nextHwp_val (h : Fin 10) : (nextHwp h).val = (h.val + 1) % 10 := by revert h; decide

theorem recallAddr_val (h : Fin 10) (k : Nat) :
    ((recallAddr h k).val : Int) = ((h.val : Int) - (k + 1)) % 10 := by
  simp only [recallAddr]; omega

/-- After a history write, depth 0 is the slot just written. -/
theorem recallAddr_nextHwp_zero (h : Fin 10) : recallAddr (nextHwp h) 0 = h := by revert h; decide

/-- After a history write, depth k + 1 is what depth k was. -/
theorem recallAddr_nextHwp_succ (h : Fin 10) (k : Nat) : recallAddr (nextHwp h) (k + 1) = recallAddr h k := by
  apply Fin.ext
  have h1 := recallAddr_val (nextHwp h) (k + 1)
  have h2 := recallAddr_val h k
  have h3 := nextHwp_val h
  push_cast at h1
  omega

/-- The nine depths below the ring's length are other slots than the write cursor's. -/
theorem recallAddr_ne_hwp (h : Fin 10) {k : Nat} (hk : k < 9) : recallAddr h k ≠ h := by
  intro e
  have h1 := recallAddr_val h k
  rw [e] at h1
  omega

/-- A history write puts its value before the list of results, which keeps the newest ten. -/
theorem State.history_storeHistory (s : State) (v : Int) :
    (s.storeHistory v).history = (v :: s.history).take 10 := by
  simp only [State.history, State.storeHistory_hcount, State.storeHistory_hwp]
  refine List.ext_getElem (by simp; omega) fun i h1 h2 => ?_
  simp only [List.getElem_map, List.getElem_range, List.getElem_take, State.histAt_storeHistory]
  cases i with
  | zero => simp [recallAddr_nextHwp_zero]
  | succ k =>
    have hk : k < 9 := by simp at h1; omega
    rw [recallAddr_nextHwp_succ, if_neg (recallAddr_ne_hwp _ hk)]
    simp

/-! ### Operands and the ALU -/

/-- All that the operand reads can do. -/
theorem State.loadOperands_cases (s : State) (rs1 rs2 : SrcIndex) :
    (22 ≤ rs1.toNat ∧ s.loadOperands rs1 rs2 = .error (.registerOutOfRange rs1)) ∨
    (rs1.toNat < 22 ∧ 22 ≤ rs2.toNat ∧ s.loadOperands rs1 rs2 = .error (.registerOutOfRange rs2)) ∨
    (∃ a b, s.loadNumber rs1 = .ok a ∧ s.loadNumber rs2 = .ok b ∧ s.loadOperands rs1 rs2 = .ok (a, b)) := by
  by_cases h1 : rs1.toNat < 22
  · by_cases h2 : rs2.toNat < 22
    · refine .inr (.inr ⟨_, _, s.loadNumber_of_lt rs1 h1, s.loadNumber_of_lt rs2 h2, ?_⟩)
      simp only [State.loadOperands, s.loadNumber_of_lt rs1 h1, s.loadNumber_of_lt rs2 h2]
    · refine .inr (.inl ⟨h1, by omega, ?_⟩)
      simp only [State.loadOperands, s.loadNumber_of_lt rs1 h1, s.loadNumber_of_ge rs2 (by omega)]
  · refine .inl ⟨by omega, ?_⟩
    simp only [State.loadOperands, s.loadNumber_of_ge rs1 (by omega)]

/-- All that the ALU can do. -/
theorem alu_cases (sel : AluOp) (a b : Int) :
    (sel = .div ∧ b = 0 ∧ alu sel a b = .error .divisionByZero) ∨
    (¬ (sel = .div ∧ b = 0) ∧ alu sel a b = .ok (aluRes sel a b)) := by
  by_cases h : sel = .div ∧ b = 0
  · exact .inl ⟨h.1, h.2, by simp [alu, div0, h.1, h.2]⟩
  · refine .inr ⟨h, ?_⟩
    have : div0 sel b = false := by simpa [div0] using h
    simp [alu, this]

/-- Every result of operands of 10 bits lies within 21 signed bits. -/
theorem aluRes_bounds (sel : AluOp) {a b : Int} (ha : 0 ≤ a ∧ a ≤ 1023) (hb : 0 ≤ b ∧ b ≤ 1023) :
    -1023 ≤ aluRes sel a b ∧ aluRes sel a b ≤ 1046529 := by
  cases sel with
  | add => simp only [aluRes, aluAdd]; omega
  | sub => simp only [aluRes, aluSub]; omega
  | mul => simp only [aluRes, aluMul]; constructor <;> nlinarith
  | div =>
    simp only [aluRes, aluTdiv, Int.tdiv_eq_ediv_of_nonneg ha.1]
    have h1 := Int.ediv_nonneg ha.1 hb.1
    have h2 := Int.ediv_le_self b ha.1
    omega

/-! ### Instructions -/

/-- All that an arithmetic instruction can do. -/
theorem execArith_cases (sel : AluOp) (rs1 rs2 : SrcIndex) (s : State) :
    (22 ≤ rs1.toNat ∧ execArith sel rs1 rs2 s = raise (.registerOutOfRange rs1) s) ∨
    (rs1.toNat < 22 ∧ 22 ≤ rs2.toNat ∧ execArith sel rs1 rs2 s = raise (.registerOutOfRange rs2) s) ∨
    (∃ a, s.loadNumber rs1 = .ok a ∧ s.loadNumber rs2 = .ok 0 ∧ sel = .div ∧
      execArith sel rs1 rs2 s = raise .divisionByZero s) ∨
    (∃ a b, s.loadNumber rs1 = .ok a ∧ s.loadNumber rs2 = .ok b ∧ ¬ (sel = .div ∧ b = 0) ∧
      execArith sel rs1 rs2 s = emit (.result sel (aluRes sel a b)) (s.storeHistory (aluRes sel a b))) := by
  rcases s.loadOperands_cases rs1 rs2 with ⟨h, e⟩ | ⟨h1, h2, e⟩ | ⟨a, b, ha, hb, e⟩
  · exact .inl ⟨h, by simp only [execArith, e]⟩
  · exact .inr (.inl ⟨h1, h2, by simp only [execArith, e]⟩)
  · rcases alu_cases sel a b with ⟨hs, rfl, ea⟩ | ⟨hs, ea⟩
    · exact .inr (.inr (.inl ⟨a, ha, hb, hs, by simp only [execArith, e, ea]⟩))
    · exact .inr (.inr (.inr ⟨a, b, ha, hb, hs, by simp only [execArith, e, ea]⟩))

/-- All that RECALL can do. -/
theorem execRecall_cases (s : State) :
    (s.rdepth < s.hcount ∧
      execRecall s = emit (.recalled (s.histAt (recallAddr s.hwp s.rdepth))) s.advanceWalk) ∨
    (s.hcount ≤ s.rdepth ∧ execRecall s = raise .noHistory s) := by
  by_cases h : s.rdepth < s.hcount
  · exact .inl ⟨h, by simp [execRecall, State.recallOk, h]⟩
  · exact .inr ⟨by omega, by simp [execRecall, State.recallOk, h]⟩

theorem exec_arithInstr (sel : AluOp) (rs1 rs2 : SrcIndex) (s : State) :
    exec (arithInstr sel rs1 rs2) s = execArith sel rs1 rs2 s := by cases sel <;> rfl

/-- The six instructions by kind. -/
theorem instr_kinds (i : Instr) :
    (∃ v, i = .store v) ∨ i = .recallLast ∨ (∃ sel rs1 rs2, i = arithInstr sel rs1 rs2) := by
  cases i with
  | store v => exact .inl ⟨v, rfl⟩
  | recallLast => exact .inr (.inl rfl)
  | add rs1 rs2 => exact .inr (.inr ⟨.add, rs1, rs2, rfl⟩)
  | sub rs1 rs2 => exact .inr (.inr ⟨.sub, rs1, rs2, rfl⟩)
  | mul rs1 rs2 => exact .inr (.inr ⟨.mul, rs1, rs2, rfl⟩)
  | div rs1 rs2 => exact .inr (.inr ⟨.div, rs1, rs2, rfl⟩)

/-- All that an instruction can do. -/
theorem exec_cases (i : Instr) (s : State) :
    (∃ v, i = .store v ∧ exec i s = emit (.stored s.nslot v) (s.storeNumber v)) ∨
    (i = .recallLast ∧ s.rdepth < s.hcount ∧
      exec i s = emit (.recalled (s.histAt (recallAddr s.hwp s.rdepth))) s.advanceWalk) ∨
    (∃ sel rs1 rs2 a b, i = arithInstr sel rs1 rs2 ∧ s.loadNumber rs1 = .ok a ∧ s.loadNumber rs2 = .ok b ∧
      ¬ (sel = .div ∧ b = 0) ∧
      exec i s = emit (.result sel (aluRes sel a b)) (s.storeHistory (aluRes sel a b))) ∨
    (i = .recallLast ∧ s.hcount ≤ s.rdepth ∧ exec i s = raise .noHistory s) ∨
    (∃ sel rs1 rs2 e, i = arithInstr sel rs1 rs2 ∧ e ≠ .noHistory ∧ exec i s = raise e s) := by
  rcases instr_kinds i with ⟨v, rfl⟩ | rfl | ⟨sel, rs1, rs2, rfl⟩
  · exact .inl ⟨v, rfl, rfl⟩
  · rcases execRecall_cases s with ⟨h, e⟩ | ⟨h, e⟩
    · exact .inr (.inl ⟨rfl, h, e⟩)
    · exact .inr (.inr (.inr (.inl ⟨rfl, h, e⟩)))
  · simp only [exec_arithInstr]
    rcases execArith_cases sel rs1 rs2 s with ⟨-, e⟩ | ⟨-, -, e⟩ | ⟨a, -, -, -, e⟩ | ⟨a, b, ha, hb, hs, e⟩
    · exact .inr (.inr (.inr (.inr ⟨sel, rs1, rs2, _, rfl, by simp, e⟩)))
    · exact .inr (.inr (.inr (.inr ⟨sel, rs1, rs2, _, rfl, by simp, e⟩)))
    · exact .inr (.inr (.inr (.inr ⟨sel, rs1, rs2, _, rfl, by simp, e⟩)))
    · exact .inr (.inr (.inl ⟨sel, rs1, rs2, a, b, rfl, ha, hb, hs, e⟩))

/-! ### The step -/

/-- A step with no call pending leaves the state as it is. -/
theorem step_of_calls_nil {s : State} (h : s.calls = []) : step s = .next s := by
  simp only [step, stepCall, State.takeCall, h]

/-- A step takes the oldest pending call and executes it. -/
theorem step_of_calls_cons {s : State} {I : List Char} {rest : List (List Char)} (h : s.calls = I :: rest) :
    step s = execCall I { s with calls := rest } := by
  simp only [step, stepCall, State.takeCall, h]

/-- All that a call can do. -/
theorem execCall_cases (I : List Char) (s : State) :
    (∃ e, decodeInstr I = .error e ∧ execCall I s = raise e s) ∨
    (∃ i, decodeInstr I = .ok i ∧ execCall I s = exec i s) := by
  cases h : decodeInstr I with
  | error e => exact .inl ⟨e, rfl, by simp only [execCall, h]⟩
  | ok i => exact .inr ⟨i, rfl, by simp only [execCall, h]⟩

/-- A run goes on from the state its first step gives. -/
theorem runSteps_succ {s t : State} (h : step s = .next t) (k : Nat) : runSteps (k + 1) s = runSteps k t := by
  have hc : Sys2Proof.core.step s = .next t := h
  simp only [runSteps, Host.Core.run, hc]
  rfl

end Sys2Proof.Machine
end

