-- ==== Sys2Proof/Laws/PerInstr.lean ====
section
/-! SUPPORT. Laws made per instruction. -/

namespace Sys2Proof.Laws

/-- The encoding of the instruction is an input the decoder accepts: 32 symbols, each `0` or `1`. -/
def EncodingAccepted.Statement (i : Instr) : Prop := Input.wellFormed (encode i) = true

theorem wellFormed_symbolsOf (w : Word) : Input.wellFormed (symbolsOf w) = true := by
  simp only [Input.wellFormed, Input.lengthOk, Input.symbolsOk, symbolsOf_length, Bool.and_eq_true, List.all_eq_true]
  exact ⟨rfl, symbolsOf_isBinary w⟩

theorem EncodingAccepted.store (imm10 : Payload) : EncodingAccepted.Statement (.store imm10) := wellFormed_symbolsOf _

theorem EncodingAccepted.recallLast : EncodingAccepted.Statement .recallLast := wellFormed_symbolsOf _

theorem EncodingAccepted.add (rs1 rs2 : SrcIndex) : EncodingAccepted.Statement (.add rs1 rs2) := wellFormed_symbolsOf _

theorem EncodingAccepted.sub (rs1 rs2 : SrcIndex) : EncodingAccepted.Statement (.sub rs1 rs2) := wellFormed_symbolsOf _

theorem EncodingAccepted.mul (rs1 rs2 : SrcIndex) : EncodingAccepted.Statement (.mul rs1 rs2) := wellFormed_symbolsOf _

theorem EncodingAccepted.div (rs1 rs2 : SrcIndex) : EncodingAccepted.Statement (.div rs1 rs2) := wellFormed_symbolsOf _

end Sys2Proof.Laws
end

