-- ==== Sys2Proof/Tests/Slice0.lean ====
section
/-! SUPPORT. Tests whose expected results are the spec's own vectors (95_test_vectors.md), and for each statement with
hypotheses a state and operands that meet them. -/

namespace Sys2Proof.Tests

open Sys2Proof.Machine

/-! ### Small states -/

/-- `s` with one pending call, the given word. -/
def pending (s : State) (w : Word) : State := { s with calls := [symbolsOf w] }

/-- Whether a step answers a next state of which `p` holds. -/
def holdsAfter (s : State) (p : State → Bool) : Bool :=
  match step s with
  | .next t => p t
  | _ => false

/-- Fresh, then STORE #5, STORE #10 (program P1). -/
def two : State := (State.reset.storeNumber 5).storeNumber 10

/-- `two` with the result 15 written to history. -/
def fifteen : State := two.storeHistory 15

/-- Fresh, then the stores of section 2.4: num[1..6] = 1023, 1023, 0, 7, 2, 1. -/
def six : State :=
  (((((State.reset.storeNumber 1023).storeNumber 1023).storeNumber 0).storeNumber 7).storeNumber 2).storeNumber 1

/-- The store cursor at 21, as after 20 stores. -/
def at21 : State := { State.reset with nslot := 21 }

/-- A state no run reaches. -/
def at0 : State := { State.reset with nslot := 0 }

theorem exists_next {s : State} {p : State → Bool} (h : holdsAfter s p = true) :
    ∃ t, step s = .next t ∧ p t = true := by
  unfold holdsAfter at h
  split at h
  · exact ⟨_, ‹_›, h⟩
  · cases h

theorem two_inv : two.Inv := ⟨by decide, by decide, by decide, by decide, by decide, by decide, by decide⟩

theorem fifteen_inv : fifteen.Inv := ⟨by decide, by decide, by decide, by decide, by decide, by decide, by decide⟩

/-! ### Well-formedness: each check refuses an ill-formed input -/

theorem test_wellFormed_accepts : Input.wellFormed (symbolsOf 0x00220020#32) = true := by decide

theorem test_wellFormed_refuses_length_31 : Input.wellFormed (List.replicate 31 '0') = false := by decide

theorem test_wellFormed_refuses_length_33 : Input.wellFormed (List.replicate 33 '0') = false := by decide

theorem test_wellFormed_refuses_bad_symbol :
    Input.wellFormed (List.replicate 31 '0' ++ ['x']) = false ∧
    Input.wellFormed ('2' :: List.replicate 31 '0') = false := by decide

/-! ### Decoding (section 2.1 and programs P1, P4), from symbols written out as the encoding gives them -/

theorem test_decode_store :
    decodeInstr ("000001" ++ "00000" ++ "00000" ++ "0000000101" ++ "000000").toList = .ok (.store 5) := by rfl

theorem test_decode_store_junk :
    decodeInstr ("000001" ++ "11111" ++ "10001" ++ "1111111111" ++ "101010").toList = .ok (.store 1023) := by rfl

theorem test_decode_recallLast_junk :
    decodeInstr ("100001" ++ "00101" ++ "00110" ++ "0000000111" ++ "001000").toList = .ok .recallLast := by rfl

theorem test_decode_add :
    decodeInstr ("000000" ++ "00001" ++ "00010" ++ "0000000000" ++ "100000").toList = .ok (.add 1 2) := by rfl

theorem test_decode_sub :
    decodeInstr ("000000" ++ "00001" ++ "00010" ++ "0000000000" ++ "100010").toList = .ok (.sub 1 2) := by rfl

theorem test_decode_mul :
    decodeInstr ("000000" ++ "00001" ++ "00010" ++ "0000000000" ++ "011000").toList = .ok (.mul 1 2) := by rfl

theorem test_decode_div :
    decodeInstr ("000000" ++ "10101" ++ "11111" ++ "0000000000" ++ "011010").toList = .ok (.div 21 31) := by rfl

theorem test_decode_errors :
    decodeInstr [] = .error (.invalidLength 0) ∧
    decodeInstr ("x" ++ "000000000000000000000000000000").toList = .error (.invalidLength 31) ∧
    decodeInstr ("00000x" ++ "00001" ++ "00001" ++ "0000000000" ++ "111111").toList
      = .error (.malformedBits .opcode) ∧
    decodeInstr ("000000" ++ "00001" ++ "0001x" ++ "0000000000" ++ "100000").toList
      = .error (.malformedBits .sourceTwo) ∧
    decodeInstr ("000000" ++ "00001" ++ "00010" ++ "000000000-" ++ "100000").toList
      = .error (.malformedBits .payload) ∧
    decodeInstr ("011111" ++ "11111" ++ "11111" ++ "0000000000" ++ "000000").toList = .error (.invalidOpcode 31) ∧
    decodeInstr ("000000" ++ "11111" ++ "11111" ++ "0000000000" ++ "000001").toList = .error (.invalidFunction 1) :=
  ⟨rfl, rfl, rfl, rfl, rfl, rfl, rfl⟩

/-- The words of the spec's tables (sections 2 and 3). -/
theorem test_encode_words :
    encodeWord (.store 5) = 0x04000140#32 ∧ encodeWord .recallLast = 0x84000000#32 ∧
    encodeWord (.add 1 2) = 0x00220020#32 ∧ encodeWord (.sub 1 2) = 0x00220022#32 ∧
    encodeWord (.mul 1 2) = 0x00220018#32 ∧ encodeWord (.div 2 1) = 0x0041001A#32 := by decide

theorem test_table_words :
    decodeTableWord 32 0x04000000 = some (.store 0) ∧ decodeTableWord 32 0x84000000 = some .recallLast ∧
    decodeTableWord 32 0x00000020 = some (.add 0 0) ∧ decodeTableWord 32 0x00000022 = some (.sub 0 0) ∧
    decodeTableWord 32 0x00000018 = some (.mul 0 0) ∧ decodeTableWord 32 0x0000001A = some (.div 0 0) ∧
    decodeTableWord 32 0x7C220020 = none := by decide

/-! ### Instructions, one step each -/

theorem test_store_then_cursor : holdsAfter (pending State.reset 0x04000140#32) (fun t =>
    t.number 1 == 5 && t.nslot == 2 && t.outcomes == [.stored 1 5]) = true := by decide

theorem test_store_wraps_to_1 : holdsAfter (pending at21 0x04000240#32) (fun t =>
    t.number 21 == 9 && t.nslot == 1 && t.outcomes == [.stored 21 9]) = true := by decide

theorem test_recall_newest : holdsAfter (pending fifteen 0x84000000#32) (fun t =>
    t.rdepth == 1 && t.outcomes == [.recalled 15]) = true := by decide

theorem test_recall_fresh : holdsAfter (pending State.reset 0x84000000#32) (fun t =>
    t.rdepth == 0 && t.outcomes == [.error .noHistory]) = true := by decide

theorem test_add_first_result : holdsAfter (pending two 0x00220020#32) (fun t =>
    t.histAt 0 == 15 && t.hwp == 1 && t.hcount == 1 && t.outcomes == [.result .add 15]) = true := by decide

theorem test_add_index_22 : holdsAfter (pending two 0x00360020#32) (fun t =>
    t.hcount == 0 && t.outcomes == [.error (.registerOutOfRange 22)]) = true := by decide

theorem test_sub_negative : holdsAfter (pending six 0x00610022#32) (fun t =>
    t.outcomes == [.result .sub (-1023)] && BitVec.ofInt 32 (t.histAt 0) == 0xFFFFFC01#32) = true := by decide

theorem test_mul_largest : holdsAfter (pending six 0x00220018#32) (fun t =>
    t.outcomes == [.result .mul 1046529]) = true := by decide

theorem test_div_truncates : holdsAfter (pending six 0x0085001A#32) (fun t =>
    t.outcomes == [.result .div 3]) = true := by decide

theorem test_div_by_register_zero : holdsAfter (pending six 0x0080001A#32) (fun t =>
    t.hcount == 0 && t.outcomes == [.error .divisionByZero]) = true := by decide

/-- Section 2.3. -/
theorem test_divide_signs :
    alu .div (-7) 2 = .ok (-3) ∧ alu .div 7 (-2) = .ok (-3) ∧ alu .div (-7) (-2) = .ok 3 ∧
    alu .div 5 0 = .error .divisionByZero := by decide

theorem test_error_codes :
    [ExecError.invalidLength 31, .malformedBits .payload, .invalidOpcode 31, .invalidFunction 1,
      .registerOutOfRange 22, .divisionByZero, .noHistory].map errorCode = [1, 2, 3, 4, 5, 6, 7] := by decide

/-- The clocked realisation on one input. -/
theorem test_clockEdge_store : (clockEdge (symbolsOf 0x04000140#32) State.reset).number 1 = 5 := by decide

/-! ### Hypotheses of the statements are met -/

theorem witness_AcceptedInputIsSlicedIntoItsFields : Input.wellFormed (symbolsOf 0xFFFFFFFF#32) = true := by decide

theorem witness_WrongLengthIsInvalidLength :
    ({ two with calls := [List.replicate 31 '0'] } : State).calls = List.replicate 31 '0' :: [] ∧
    (List.replicate 31 '0').length ≠ 32 ∧ (List.replicate 33 '0').length ≠ 32 ∧ ([] : List Char).length ≠ 32 := by
  decide

theorem witness_FirstBadFieldIsMalformedBits :
    (List.replicate 31 '0' ++ ['x']).length = 32 ∧ ('x' :: List.replicate 31 '0').length = 32 := by decide

theorem witness_ExactlyOneOpcodeClass : (sliceFields (symbolsOf 0x7C220020#32)).opcode = 0b011111#6 := by decide

theorem witness_FunctionCodeSelectsTheOperation :
    isStore ⟨1, 31, 17, 1023, 42⟩ = true ∧ isRecall ⟨33, 5, 6, 7, 8⟩ = true := by decide

theorem witness_IgnoredFieldsDoNotChangeTheInstruction :
    (Word.opcode 0x07F1FFEA#32 = 1#6 ∧ Word.opcode 0x0400FFC0#32 = 1#6 ∧
      Word.imm10 0x07F1FFEA#32 = Word.imm10 0x0400FFC0#32) ∧
    (Word.opcode 0x84A601C8#32 = 33#6 ∧ Word.opcode 0x84000000#32 = 33#6) ∧
    (Word.opcode 0x0022FFE0#32 = 0#6 ∧ Word.opcode 0x00220020#32 = 0#6 ∧
      Word.rs1 0x0022FFE0#32 = Word.rs1 0x00220020#32 ∧ Word.rs2 0x0022FFE0#32 = Word.rs2 0x00220020#32 ∧
      Word.funct 0x0022FFE0#32 = Word.funct 0x00220020#32) := by decide

theorem witness_DecoderChecksComeFirst :
    ({ two with calls := ['x' :: List.replicate 31 '1'] } : State).calls = ('x' :: List.replicate 31 '1') :: [] ∧
    Input.wellFormed ('x' :: List.replicate 31 '1') = false := by decide

theorem witness_StepRunsTheDecodedInstruction :
    (pending two 0x00220020#32).calls = symbolsOf 0x00220020#32 :: [] ∧
    decodeInstr (symbolsOf 0x00220020#32) = .ok (.add 1 2) ∧ decodeTableWord 32 0x00220020 = some (.add 1 2) :=
  ⟨rfl, by decide, by decide⟩

theorem witness_StepWithoutACallIdles : two.calls = [] := rfl

theorem witness_EveryCallGivesExactlyOneOutcome :
    (pending two 0x84000000#32).calls = symbolsOf 0x84000000#32 :: [] := rfl

/-- At the boundary and past it. -/
theorem witness_EveryRunGivesOneOutcomePerCall :
    (pending two 0x84000000#32).calls.length ≤ 1 ∧ (pending two 0x84000000#32).calls.length ≤ 3 := by decide

/-- Two states of one block that differ in their calls and outcomes. -/
theorem witness_ACallDependsOnTheBlockAlone :
    (pending two 0x84000000#32).calls = symbolsOf 0x84000000#32 :: [] ∧
    ({ two with calls := [symbolsOf 0x84000000#32, []], outcomes := [.recalled 1] } : State).calls =
      symbolsOf 0x84000000#32 :: [[]] ∧
    (pending two 0x84000000#32).SameBlock
      { two with calls := [symbolsOf 0x84000000#32, []], outcomes := [.recalled 1] } :=
  ⟨rfl, rfl, ⟨rfl, rfl⟩, rfl, rfl, rfl, rfl⟩

theorem witness_OtherOpcodesAreInvalidOpcode :
    (pending two 0xFFFFFFFF#32).calls = symbolsOf 0xFFFFFFFF#32 :: [] ∧ Word.opcode 0xFFFFFFFF#32 ≠ 0#6 ∧
    Word.opcode 0xFFFFFFFF#32 ≠ 1#6 ∧ Word.opcode 0xFFFFFFFF#32 ≠ 33#6 := ⟨rfl, by decide, by decide, by decide⟩

theorem witness_OtherFunctionCodesAreInvalidFunction :
    (pending two 0x00220021#32).calls = symbolsOf 0x00220021#32 :: [] ∧ Word.opcode 0x00220021#32 = 0#6 ∧
    Word.funct 0x00220021#32 ≠ 32#6 ∧ Word.funct 0x00220021#32 ≠ 34#6 ∧ Word.funct 0x00220021#32 ≠ 24#6 ∧
    Word.funct 0x00220021#32 ≠ 26#6 := ⟨rfl, by decide, by decide, by decide, by decide, by decide⟩

theorem witness_SourceIndexOutOfRangeFails :
    22 ≤ (22#5).toNat ∧ 22 ≤ (31#5).toNat ∧ (21#5).toNat < 22 ∧ (0#5).toNat < 22 := by decide

theorem witness_DivisionByZeroWritesNothing : two.number 0 = 0 ∧ two.number 21 = 0 := by decide

theorem witness_RecallWithNothingLeftIsNoHistory :
    State.reset.hcount ≤ State.reset.rdepth ∧ fifteen.advanceWalk.hcount ≤ fifteen.advanceWalk.rdepth ∧
    fifteen.rdepth < fifteen.hcount ∧
    holdsAfter (pending fifteen 0x84000000#32) (fun t => t.outcomes == [.recalled 15]) = true := by decide

theorem witness_FirstErrorInPrecedenceIsReported :
    (pending two 0x03FF0000#32).calls = symbolsOf 0x03FF0000#32 :: [] := rfl

theorem witness_ErrorsChangeNoState : ∃ t, step (pending two 0x0020001A#32) = .next t ∧
    (t.outcomes == (pending two 0x0020001A#32).outcomes ++ [.error .divisionByZero]) = true :=
  exists_next (by decide)

theorem witness_StoreWritesTheRegisterAtTheCursor : State.reset.nslot ≠ 0 ∧ at21.nslot ≠ 0 := by decide

theorem witness_StoreAtSlotZeroWritesNoRegister : at0.nslot = 0 := rfl

theorem witness_NumberBankWrittenExactlyByStore :
    (pending two 0x04000140#32).calls = symbolsOf 0x04000140#32 :: [] ∧ (pending two 0x04000140#32).Inv ∧
    numWe (symbolsOf 0x04000140#32) = true ∧ numWe (symbolsOf 0x84000000#32) = false ∧
    decode (symbolsOf 0x04000140#32) = .ok ⟨1, 0, 0, 5, 0⟩ :=
  ⟨rfl, ⟨by decide, by decide, by decide, by decide, by decide, by decide, by decide⟩, by decide, by decide, by decide⟩

theorem witness_StoreCursorAdvancesExactlyOnStore :
    (pending at21 0x04000140#32).calls = symbolsOf 0x04000140#32 :: [] ∧ numWe (symbolsOf 0x04000140#32) = true ∧
    numWe (symbolsOf 0x00220020#32) = false := ⟨rfl, by decide, by decide⟩

theorem witness_LoadNumberReadsTheBank :
    22 ≤ (22#5).toNat ∧ (21 : Fin 22) ≠ 0 ∧ (21#5).toNat = (21 : Fin 22).val := by decide

theorem witness_RegisterZeroIsHardwired : ∃ t, step (pending two 0x04000140#32) = .next t ∧
    (t.number 3 == 5) = true := exists_next (by decide)

theorem witness_ConsecutiveStoresFillTheSlotsInTurn :
    at21.nslot ≠ 0 ∧ ({ at21 with calls := [encode (.store 1), encode (.store 2)] } : State).calls =
      ([1, 2] : List Payload).map (fun p => encode (.store p)) := ⟨by decide, rfl⟩

theorem witness_QuotientTruncatesTowardZero : (-2 : Int) ≠ 0 := by decide

theorem witness_DivWritesTheQuotientToHistory : two.number 1 ≠ 0 := by decide

/-- One step for each operation, at the ends of the ranges. -/
theorem witness_ResultsStayInTheirRanges :
    (∃ t, step (pending six 0x00220020#32) = .next t ∧ (t.outcomes == [.result .add 2046]) = true) ∧
    (∃ t, step (pending six 0x00610022#32) = .next t ∧ (t.outcomes == [.result .sub (-1023)]) = true) ∧
    (∃ t, step (pending six 0x00220018#32) = .next t ∧ (t.outcomes == [.result .mul 1046529]) = true) ∧
    (∃ t, step (pending six 0x0026001A#32) = .next t ∧ (t.outcomes == [.result .div 1023]) = true) :=
  ⟨exists_next (by decide), exists_next (by decide), exists_next (by decide), exists_next (by decide)⟩

theorem witness_EveryResultWidthHoldsTheHistory : fifteen.Inv ∧ Config.minResultW ≤ 21 := ⟨fifteen_inv, le_refl _⟩

theorem witness_RecallReturnsTheNextOlderValue : fifteen.rdepth < fifteen.hcount := by decide

theorem witness_HistoryWrittenExactlyWhenEnabled :
    (pending two 0x00220020#32).calls = symbolsOf 0x00220020#32 :: [] ∧
    histWe (symbolsOf 0x00220020#32) (pending two 0x00220020#32) = true ∧
    histWe (symbolsOf 0x0020001A#32) two = false := ⟨rfl, by decide, by decide⟩

/-- One step for each alternative: a result, a recalled value, neither. -/
theorem witness_HistoryRingIsTheTenNewestResults :
    fifteen.Inv ∧
    (∃ t, step (pending fifteen 0x00220020#32) = .next t ∧ (t.outcomes == [.result .add 15]) = true) ∧
    (∃ t, step (pending fifteen 0x84000000#32) = .next t ∧ (t.outcomes == [.recalled 15]) = true) ∧
    (∃ t, step (pending fifteen 0x04000140#32) = .next t ∧ (t.outcomes == [.stored 3 5]) = true) :=
  ⟨fifteen_inv, exists_next (by decide), exists_next (by decide), exists_next (by decide)⟩

theorem witness_ConsecutiveRecallsReturnTheWalk :
    ({ fifteen with calls := [encode .recallLast, encode .recallLast] } : State).Inv ∧
    ({ fifteen with calls := [encode .recallLast, encode .recallLast] } : State).calls =
      List.replicate 2 (encode .recallLast) ∧ fifteen.walk = [15] :=
  ⟨⟨by decide, by decide, by decide, by decide, by decide, by decide, by decide⟩, rfl, by decide⟩

theorem witness_ACallWritesAtMostOneBank :
    (pending two 0x00220020#32).calls = symbolsOf 0x00220020#32 :: [] := rfl

theorem witness_LaterInstructionsSeeEarlierWrites :
    two.nslot ≠ 0 ∧ ∃ t, exec (arithInstr .add 1 2) two = .next t ∧ t.outcomes = two.outcomes ++ [.result .add 15] :=
  ⟨by decide, _, rfl, rfl⟩

theorem witness_HistorySnapshotShowsTheValueFields : fifteen.Inv ∧ fifteen.hcount ≤ (1 : Fin 10).val :=
  ⟨fifteen_inv, by decide⟩

theorem witness_EveryStepKeepsTheInvariant : (pending two 0x00220020#32).Inv ∧
    ∃ t, step (pending two 0x00220020#32) = .next t ∧ (t.outcomes == [.result .add 15]) = true :=
  ⟨⟨by decide, by decide, by decide, by decide, by decide, by decide, by decide⟩, exists_next (by decide)⟩

theorem witness_ClockedRealisationEqualsTheStep :
    (pending two 0x0041001A#32).calls = symbolsOf 0x0041001A#32 :: [] := rfl

end Sys2Proof.Tests
end

/-! ### O14: one outcome per call -/

namespace Sys2Proof.Machine

/-- What `r`, the answer of an instruction or a call on `s`, does at the ports: it is a next state, with exactly one
outcome more than `s` and the same pending calls. -/
def GivesOneOutcome (s : State) (r : Host.Outcome State Fault Refusal) : Prop :=
  ∃ t o, r = .next t ∧ t.outcomes = s.outcomes ++ [o] ∧ t.calls = s.calls

/-- An `emit` whose staged writes `s'` touch neither port gives one outcome. -/
theorem emit_givesOneOutcome (o : ExecOutcome) {s s' : State} (hout : s'.outcomes = s.outcomes)
    (hcalls : s'.calls = s.calls) : GivesOneOutcome s (emit o s') :=
  ⟨s'.report o, o, rfl, by rw [State.report_outcomes, hout], by rw [State.report_calls, hcalls]⟩

/-- An error is an outcome like any other, not a stop. -/
theorem raise_givesOneOutcome (e : ExecError) (s : State) : GivesOneOutcome s (raise e s) :=
  ⟨s.report (.error e), .error e, rfl, s.report_outcomes _, s.report_calls _⟩

/-- Each instruction emits or raises once, and its writes touch neither port. -/
theorem exec_givesOneOutcome (i : Instr) (s : State) : GivesOneOutcome s (exec i s) := by
  rcases exec_cases i s with ⟨v, -, hexec⟩ | ⟨-, -, hexec⟩ | ⟨sel, -, -, a, b, -, -, -, -, hexec⟩ | ⟨-, -, hexec⟩ |
    ⟨-, -, -, e, -, -, hexec⟩
  · rw [hexec]
    exact emit_givesOneOutcome _ (s.storeNumber_outcomes v) (s.storeNumber_calls v)
  · rw [hexec]
    exact emit_givesOneOutcome _ s.advanceWalk_outcomes s.advanceWalk_calls
  · rw [hexec]
    exact emit_givesOneOutcome _ (s.storeHistory_outcomes _) (s.storeHistory_calls _)
  · rw [hexec]
    exact raise_givesOneOutcome .noHistory s
  · rw [hexec]
    exact raise_givesOneOutcome e s

/-- A call ends in the decoder's error or in the outcome of the instruction it decodes to. -/
theorem execCall_givesOneOutcome (I : List Char) (s : State) : GivesOneOutcome s (execCall I s) := by
  rcases execCall_cases I s with ⟨e, -, hcall⟩ | ⟨i, -, hcall⟩
  · rw [hcall]
    exact raise_givesOneOutcome e s
  · rw [hcall]
    exact exec_givesOneOutcome i s

/-- Settles O14: the step takes the oldest call from the queue, and the call adds one outcome. -/
theorem everyCallGivesExactlyOneOutcome : Obligations.EveryCallGivesExactlyOneOutcome := by
  intro s I rest hcalls
  rw [step_of_calls_cons hcalls]
  exact execCall_givesOneOutcome I { s with calls := rest }

end Sys2Proof.Machine

/-! ### O29: register 0 -/

namespace Sys2Proof.Machine

/-- A write of any register leaves the place of register 0 as it is: aimed at register 0 it writes nothing, aimed at
another register it writes another place. -/
theorem State.writeNumber_num_get_zero (s : State) (i : Fin 22) (v : Payload) :
    (s.writeNumber i v).num.get 0 = s.num.get 0 := by
  rw [State.writeNumber_num]
  by_cases hi : i = 0
  · rw [if_pos hi]
  · have hplace : i.val ≠ 0 := fun h => hi (Fin.ext h)
    rw [if_neg hi]
    simp [Vector.get_eq_getElem, hplace]

/-- An `emit` commits the bank of its staged writes. -/
theorem num_of_emit {o : ExecOutcome} {s t : State} (h : emit o s = .next t) : t.num = s.num := by
  cases h
  exact s.report_num o

/-- An error leaves the bank as it is. -/
theorem num_of_raise {e : ExecError} {s t : State} (h : raise e s = .next t) : t.num = s.num := by
  cases h
  exact s.report_num _

/-- All that an instruction can do to the number bank: nothing, or one write at the store cursor. -/
theorem exec_num_cases {i : Instr} {s t : State} (h : exec i s = .next t) :
    t.num = s.num ∨ ∃ v, i = .store v ∧ t.num = (s.writeNumber s.nslot v).num := by
  rcases exec_cases i s with ⟨v, hi, hexec⟩ | ⟨-, -, hexec⟩ | ⟨sel, -, -, a, b, -, -, -, -, hexec⟩ | ⟨-, -, hexec⟩ |
    ⟨-, -, -, e, -, -, hexec⟩ <;> rw [hexec] at h
  · exact .inr ⟨v, hi, (num_of_emit h).trans (s.storeNumber_num v)⟩
  · exact .inl ((num_of_emit h).trans s.advanceWalk_num)
  · exact .inl ((num_of_emit h).trans (s.storeHistory_num _))
  · exact .inl (num_of_raise h)
  · exact .inl (num_of_raise h)

/-- All that a call can do to the number bank: nothing, or a STORE's one write at the store cursor. -/
theorem execCall_num_cases {I : List Char} {s t : State} (h : execCall I s = .next t) :
    t.num = s.num ∨ ∃ v, decodeInstr I = .ok (.store v) ∧ t.num = (s.writeNumber s.nslot v).num := by
  rcases execCall_cases I s with ⟨e, -, hcall⟩ | ⟨i, hi, hcall⟩ <;> rw [hcall] at h
  · exact .inl (num_of_raise h)
  · rcases exec_num_cases h with hnum | ⟨v, rfl, hnum⟩
    · exact .inl hnum
    · exact .inr ⟨v, hi, hnum⟩

/-- All that a step can do to the number bank: nothing, or one write at the store cursor. -/
theorem step_num_cases {s t : State} (h : step s = .next t) :
    t.num = s.num ∨ ∃ v, t.num = (s.writeNumber s.nslot v).num := by
  cases hcalls : s.calls with
  | nil =>
    rw [step_of_calls_nil hcalls] at h
    cases h
    exact .inl rfl
  | cons I rest =>
    rw [step_of_calls_cons hcalls] at h
    rcases execCall_num_cases h with hnum | ⟨v, -, hnum⟩
    · exact .inl hnum
    · exact .inr ⟨v, hnum⟩

/-- Settles O29: reads of register 0 do not look at its place, and the one write a step can do to the bank leaves that
place as it is, whatever the store cursor. -/
theorem registerZeroIsHardwired : Obligations.RegisterZeroIsHardwired := by
  intro s
  refine ⟨s.number_zero, s.loadNumber_ofNat 0, fun t hstep => ?_⟩
  rcases step_num_cases hstep with hnum | ⟨v, hnum⟩
  · rw [hnum]
  · rw [hnum, State.writeNumber_num_get_zero]

end Sys2Proof.Machine

/-! ### O2: the opcode table over every word -/

namespace Sys2Proof.Machine

/-! #### The table's masks, read field by field -/

/-- Words assembled from fields are equal exactly when every field is. -/
theorem assemble_eq_assemble_iff (o o' : Opcode) (a a' b b' : SrcIndex) (p p' : Payload) (f f' : Funct) :
    assemble o a b p f = assemble o' a' b' p' f' ↔ o = o' ∧ a = a' ∧ b = b' ∧ p = p' ∧ f = f' := by
  constructor
  · intro h
    exact ⟨by simpa using congrArg Word.opcode h, by simpa using congrArg Word.rs1 h,
      by simpa using congrArg Word.rs2 h, by simpa using congrArg Word.imm10 h, by simpa using congrArg Word.funct h⟩
  · rintro ⟨rfl, rfl, rfl, rfl, rfl⟩
    rfl

/-- The mask of STORE and RECALL keeps the opcode field alone. -/
theorem and_opcodeMask (w : Word) : w &&& 0xFC000000#32 = assemble w.opcode 0 0 0 0 := by
  have hmask : 0xFC000000#32 = assemble (BitVec.allOnes 6) 0 0 0 0 := by decide
  conv_lhs => rw [← assemble_fields w, hmask, assemble_and]
  simp only [BitVec.and_allOnes, BitVec.ofNat_eq_ofNat, BitVec.and_zero]

/-- The mask of the arithmetic rows keeps the opcode and the function code. -/
theorem and_functMask (w : Word) : w &&& 0xFC00003F#32 = assemble w.opcode 0 0 0 w.funct := by
  have hmask : 0xFC00003F#32 = assemble (BitVec.allOnes 6) 0 0 0 (BitVec.allOnes 6) := by decide
  conv_lhs => rw [← assemble_fields w, hmask, assemble_and]
  simp only [BitVec.and_allOnes, BitVec.ofNat_eq_ofNat, BitVec.and_zero]

/-- A row without a function code matches by the opcode. -/
theorem and_opcodeMask_eq_iff (w : Word) (o : Opcode) :
    w &&& 0xFC000000#32 = assemble o 0 0 0 0 ↔ w.opcode = o := by
  simp [and_opcodeMask, assemble_eq_assemble_iff]

/-- A row with a function code matches by the opcode and the function code. -/
theorem and_functMask_eq_iff (w : Word) (o : Opcode) (f : Funct) :
    w &&& 0xFC00003F#32 = assemble o 0 0 0 f ↔ w.opcode = o ∧ w.funct = f := by
  simp [and_functMask, assemble_eq_assemble_iff]

/-! #### The operations and their function codes -/

/-- The function code of each operation (30_encoding.md R65). -/
def functionCode : AluOp → Funct
  | .add => 0b100000#6
  | .sub => 0b100010#6
  | .mul => 0b011000#6
  | .div => 0b011010#6

theorem aluSel_eq_some_iff (f : Funct) (op : AluOp) : aluSel f = some op ↔ f = functionCode op := by
  revert f
  cases op <;> decide

theorem encodeWord_arithInstr (op : AluOp) (a b : SrcIndex) :
    encodeWord (arithInstr op a b) = assemble 0b000000#6 a b 0 (functionCode op) := by
  cases op <;> rfl

theorem arithInstr_eq_arithInstr_iff (op op' : AluOp) (a a' b b' : SrcIndex) :
    arithInstr op a b = arithInstr op' a' b' ↔ op = op' ∧ a = a' ∧ b = b' := by
  cases op <;> cases op' <;> simp [arithInstr]

theorem arithInstr_ne_store (op : AluOp) (a b : SrcIndex) (p : Payload) : arithInstr op a b ≠ .store p := by
  cases op <;> simp [arithInstr]

theorem arithInstr_ne_recallLast (op : AluOp) (a b : SrcIndex) : arithInstr op a b ≠ .recallLast := by
  cases op <;> simp [arithInstr]

/-! #### What a record and a word decode to -/

/-- The records that stand for an instruction, and which one each stands for. -/
theorem selectInstr_eq_ok_iff (d : Decoded) (i : Instr) :
    selectInstr d = .ok i ↔
      (d.opcode = 0b000001#6 ∧ i = .store d.imm10) ∨ (d.opcode = 0b100001#6 ∧ i = .recallLast) ∨
      ∃ op, (d.opcode = 0b000000#6 ∧ d.funct = functionCode op) ∧ i = arithInstr op d.rs1 d.rs2 := by
  obtain ⟨harith, hstore, hrecall, -⟩ := classify_eq d.opcode
  simp only [← harith, ← hstore, ← hrecall, ← aluSel_eq_some_iff]
  rcases selectInstr_cases d with ⟨hc, hs⟩ | ⟨hc, hs⟩ | ⟨hc, hs⟩ | ⟨hc, hf, hs⟩ | ⟨hc, hops⟩
  · simp [hc, hs, eq_comm]
  · simp [hc, hs, eq_comm]
  · simp [hc, hs]
  · simp [hc, hf, hs]
  · rcases hops with ⟨hf, hs⟩ | ⟨hf, hs⟩ | ⟨hf, hs⟩ | ⟨hf, hs⟩ <;> simp [hc, hf, hs, arithInstr, eq_comm]

/-- The symbols of a word pass the decoder's checks, so the fields of the word decide. -/
theorem decodeInstr_symbolsOf (w : Word) :
    decodeInstr (symbolsOf w) = selectInstr ⟨w.opcode, w.rs1, w.rs2, w.imm10, w.funct⟩ := by
  have hdecode : decode (symbolsOf w) = .ok (sliceFields (symbolsOf w)) := by
    simp [decode, firstBadField_eq_none (symbolsOf_isBinary w)]
  simp only [decodeInstr, hdecode, sliceFields_symbolsOf]

/-- The opcode table (30_encoding.md R66): the match of a row is the encoding of its instruction with every operand
0. -/
theorem decodeInstr_symbolsOf_eq_ok_iff (w : Word) (i : Instr) :
    decodeInstr (symbolsOf w) = .ok i ↔
      (w &&& 0xFC000000#32 = encodeWord (.store 0) ∧ i = .store w.imm10) ∨
      (w &&& 0xFC000000#32 = encodeWord .recallLast ∧ i = .recallLast) ∨
      ∃ op, w &&& 0xFC00003F#32 = encodeWord (arithInstr op 0 0) ∧ i = arithInstr op w.rs1 w.rs2 := by
  have hstore : w &&& 0xFC000000#32 = encodeWord (.store 0) ↔ w.opcode = 0b000001#6 := and_opcodeMask_eq_iff w _
  have hrecall : w &&& 0xFC000000#32 = encodeWord .recallLast ↔ w.opcode = 0b100001#6 := and_opcodeMask_eq_iff w _
  have harith (op : AluOp) : w &&& 0xFC00003F#32 = encodeWord (arithInstr op 0 0) ↔
      w.opcode = 0b000000#6 ∧ w.funct = functionCode op := by
    rw [encodeWord_arithInstr, and_functMask_eq_iff]
  simp only [decodeInstr_symbolsOf, selectInstr_eq_ok_iff, hstore, hrecall, harith]

/-! #### The rows -/

theorem decodeInstr_symbolsOf_eq_store_iff (w : Word) (p : Payload) :
    decodeInstr (symbolsOf w) = .ok (.store p) ↔ w &&& 0xFC000000#32 = encodeWord (.store 0) ∧ p = w.imm10 := by
  simp [decodeInstr_symbolsOf_eq_ok_iff, (arithInstr_ne_store _ _ _ _).symm]

theorem decodeInstr_symbolsOf_eq_recallLast_iff (w : Word) :
    decodeInstr (symbolsOf w) = .ok .recallLast ↔ w &&& 0xFC000000#32 = encodeWord .recallLast := by
  simp [decodeInstr_symbolsOf_eq_ok_iff, (arithInstr_ne_recallLast _ _ _).symm]

theorem decodeInstr_symbolsOf_eq_arithInstr_iff (w : Word) (op : AluOp) (a b : SrcIndex) :
    decodeInstr (symbolsOf w) = .ok (arithInstr op a b) ↔
      w &&& 0xFC00003F#32 = encodeWord (arithInstr op 0 0) ∧ a = w.rs1 ∧ b = w.rs2 := by
  simp [decodeInstr_symbolsOf_eq_ok_iff, arithInstr_ne_store, arithInstr_ne_recallLast, arithInstr_eq_arithInstr_iff]

/-- A word decodes to an instruction exactly when it matches a row. -/
theorem exists_decodeInstr_symbolsOf_eq_ok_iff (w : Word) :
    (∃ i, decodeInstr (symbolsOf w) = .ok i) ↔
      w &&& 0xFC000000#32 = encodeWord (.store 0) ∨ w &&& 0xFC000000#32 = encodeWord .recallLast ∨
      ∃ op, w &&& 0xFC00003F#32 = encodeWord (arithInstr op 0 0) := by
  simp only [decodeInstr_symbolsOf_eq_ok_iff]
  constructor
  · rintro ⟨i, ⟨hrow, -⟩ | ⟨hrow, -⟩ | ⟨op, hrow, -⟩⟩
    · exact .inl hrow
    · exact .inr (.inl hrow)
    · exact .inr (.inr ⟨op, hrow⟩)
  · rintro (hrow | hrow | ⟨op, hrow⟩)
    · exact ⟨_, .inl ⟨hrow, rfl⟩⟩
    · exact ⟨_, .inr (.inl ⟨hrow, rfl⟩)⟩
    · exact ⟨_, .inr (.inr ⟨op, hrow, rfl⟩)⟩

/-- Something holds of an operation exactly when it holds of one of the four. -/
theorem exists_aluOp_iff (P : AluOp → Prop) : (∃ op, P op) ↔ P .add ∨ P .sub ∨ P .mul ∨ P .div := by
  constructor
  · rintro ⟨_ | _ | _ | _, h⟩ <;> simp [h]
  · rintro (h | h | h | h) <;> exact ⟨_, h⟩

/-- Settles O2, row by row: a row's match is the encoding of its instruction with every operand 0. -/
theorem opcodeTableDecidesEveryWord : Obligations.OpcodeTableDecidesEveryWord := by
  intro w
  have hany := exists_decodeInstr_symbolsOf_eq_ok_iff w
  rw [exists_aluOp_iff] at hany
  exact ⟨decodeInstr_symbolsOf_eq_store_iff w, decodeInstr_symbolsOf_eq_recallLast_iff w,
    decodeInstr_symbolsOf_eq_arithInstr_iff w .add, decodeInstr_symbolsOf_eq_arithInstr_iff w .sub,
    decodeInstr_symbolsOf_eq_arithInstr_iff w .mul, decodeInstr_symbolsOf_eq_arithInstr_iff w .div, hany⟩

end Sys2Proof.Machine

/-! ### O3, O4: what the decoder accepts, and the record it makes -/

namespace Sys2Proof.Machine

/-! #### The symbol check covers the whole input -/

/-- Adjacent slices join. -/
theorem slice_append_slice (I : List Char) {a b c : Nat} (hab : a ≤ b) (hbc : b ≤ c) :
    slice I a b ++ slice I b c = slice I a c := by
  have hdrop : I.drop b = (I.drop a).drop (b - a) := by rw [List.drop_drop, Nat.add_sub_cancel' hab]
  have hlen : c - a = (b - a) + (c - b) := by omega
  rw [slice, slice, slice, hdrop, hlen, List.take_add]

/-- The five fields, in layout order, leave out no symbol of an input of the right length. -/
theorem flatMap_fieldSymbols_layout {I : List Char} (hlen : I.length = 32) :
    Field.layout.flatMap (fieldSymbols I) = I := by
  have hall : slice I 0 32 = I := by rw [slice, List.drop_zero, List.take_of_length_le (by omega)]
  calc Field.layout.flatMap (fieldSymbols I)
      = slice I 0 6 ++ (slice I 6 11 ++ (slice I 11 16 ++ (slice I 16 26 ++ slice I 26 32))) := by
        simp [Field.layout, fieldSymbols, Field.bounds]
    _ = slice I 0 32 := by
        rw [slice_append_slice I (by omega) (by omega), slice_append_slice I (by omega) (by omega),
          slice_append_slice I (by omega) (by omega), slice_append_slice I (by omega) (by omega)]
    _ = I := hall

/-- The symbol check passes exactly when every field does. -/
theorem firstBadField_eq_none_iff (I : List Char) :
    firstBadField I = none ↔ ∀ f ∈ Field.layout, ∀ c ∈ fieldSymbols I f, isBinary c = true := by
  simp [firstBadField, List.find?_eq_none, fieldOk]

/-- The decoder's two checks accept exactly the well-formed inputs. -/
theorem wellFormed_iff_checks (I : List Char) :
    Input.wellFormed I = true ↔ I.length = 32 ∧ firstBadField I = none := by
  rw [wellFormed_iff]
  refine and_congr_right fun hlen => ⟨firstBadField_eq_none, fun hnone c hc => ?_⟩
  rw [← flatMap_fieldSymbols_layout hlen, List.mem_flatMap] at hc
  obtain ⟨f, hf, hcf⟩ := hc
  exact (firstBadField_eq_none_iff I).mp hnone f hf c hcf

/-- A well-formed input passes both checks and is sliced. -/
theorem decode_of_wellFormed {I : List Char} (h : Input.wellFormed I = true) : decode I = .ok (sliceFields I) := by
  obtain ⟨hlen, hnone⟩ := (wellFormed_iff_checks I).mp h
  simp [decode, hlen, hnone]

/-- An ill-formed input fails one of the two checks. -/
theorem decode_of_not_wellFormed {I : List Char} (h : Input.wellFormed I = false) :
    ∃ e, decode I = .error e ∧ ((∃ n, e = .invalidLength n) ∨ ∃ f, e = .malformedBits f) := by
  rcases decode_cases I with ⟨-, hdec⟩ | ⟨f, -, -, hdec⟩ | ⟨hlen, hnone, -⟩
  · exact ⟨_, hdec, .inl ⟨I.length, rfl⟩⟩
  · exact ⟨_, hdec, .inr ⟨f, rfl⟩⟩
  · rw [(wellFormed_iff_checks I).mpr ⟨hlen, hnone⟩] at h
    cases h

/-- Settles O4: well-formedness decides between the record and the two errors. -/
theorem decodeIsTotal : Obligations.DecodeIsTotal := by
  intro I
  cases h : Input.wellFormed I with
  | true => exact .inl ⟨rfl, _, decode_of_wellFormed h⟩
  | false =>
    obtain ⟨e, hdec, ⟨n, rfl⟩ | ⟨f, rfl⟩⟩ := decode_of_not_wellFormed h
    · exact .inr ⟨rfl, .inl ⟨n, hdec⟩⟩
    · exact .inr ⟨rfl, .inr ⟨f, hdec⟩⟩

/-! #### The fields of the word view -/

/-- The record of a well-formed input holds the fields of its word view. -/
theorem sliceFields_of_wellFormed {I : List Char} (h : Input.wellFormed I = true) :
    sliceFields I =
      ⟨(wordOf I).opcode, (wordOf I).rs1, (wordOf I).rs2, (wordOf I).imm10, (wordOf I).funct⟩ := by
  rw [← sliceFields_symbolsOf, symbolsOf_wordOf h]

/-- The bits `[32-b, 32-a)` of the word view have the value of the symbols `[a,b)`: no symbol is lost to the width of
the field. -/
theorem toNat_extractLsb'_wordOf {I : List Char} (h : Input.wellFormed I = true) (a b n : Nat) (hn : b - a = n)
    (hab : a ≤ b) (hb : b ≤ 32) : ((wordOf I).extractLsb' (32 - b) n).toNat = val (slice I a b) := by
  subst hn
  conv_rhs => rw [← symbolsOf_wordOf h]
  rw [symbolsOf, val_slice_natSymbols 32 a b _ hab hb, BitVec.extractLsb'_toNat, Nat.shiftRight_eq_div_pow]

/-- Settles O3: the record is that of the word view, whose bits the input's symbols spell. -/
theorem acceptedInputIsSlicedIntoItsFields : Obligations.AcceptedInputIsSlicedIntoItsFields := by
  refine ⟨fun I h => ?_, rfl⟩
  have hdec := decode_of_wellFormed h
  rw [sliceFields_of_wellFormed h] at hdec
  exact ⟨_, hdec,
    toNat_extractLsb'_wordOf h 0 6 6 rfl (by omega) (by omega), rfl,
    toNat_extractLsb'_wordOf h 6 11 5 rfl (by omega) (by omega), rfl,
    toNat_extractLsb'_wordOf h 11 16 5 rfl (by omega) (by omega), rfl,
    toNat_extractLsb'_wordOf h 16 26 10 rfl (by omega) (by omega), rfl,
    toNat_extractLsb'_wordOf h 26 32 6 rfl (by omega) (by omega), rfl,
    symbolsOf_wordOf h⟩

end Sys2Proof.Machine

/-! ### O5, O10: the decoder's errors as outcomes of a step -/

namespace Sys2Proof.Machine

/-- The length check comes first and reports the input's length. -/
theorem decode_eq_invalidLength_iff (I : List Char) (n : Nat) :
    decode I = .error (.invalidLength n) ↔ I.length ≠ 32 ∧ n = I.length := by
  rcases decode_cases I with ⟨hlen, hdec⟩ | ⟨f, hlen, -, hdec⟩ | ⟨hlen, -, hdec⟩
  · simp [hdec, hlen, eq_comm]
  · simp [hdec, hlen]
  · simp [hdec, hlen]

/-- An error of the decoder goes before any opcode or function check. -/
theorem decodeInstr_of_decode_error {I : List Char} {e : ExecError} (h : decode I = .error e) :
    decodeInstr I = .error e := by
  simp only [decodeInstr, h]

/-- An error changes nothing but the outcomes. -/
theorem State.sameBlock_report (s : State) (o : ExecOutcome) : s.SameBlock (s.report o) :=
  ⟨⟨s.report_num o, s.report_nslot o⟩,
    s.report_hist o, s.report_hwp o, s.report_hcount o, s.report_rdepth o⟩

/-- A pending call that does not decode to an instruction: the step consumes it, reports the error and leaves the
block as it is. -/
theorem step_of_decodeInstr_error {s : State} {I : List Char} {rest : List (List Char)} {e : ExecError}
    (hcalls : s.calls = I :: rest) (h : decodeInstr I = .error e) :
    ∃ t, step s = .next t ∧ t.outcomes = s.outcomes ++ [.error e] ∧ s.SameBlock t ∧ t.calls = rest := by
  have hstep : step s = raise e { s with calls := rest } := by
    rw [step_of_calls_cons hcalls]
    simp only [execCall, h]
  exact ⟨_, hstep, rfl, State.sameBlock_report { s with calls := rest } _, rfl⟩

/-- Settles O5: the length check in the decoder, and the step that reports it. -/
theorem wrongLengthIsInvalidLength : Obligations.WrongLengthIsInvalidLength := by
  refine ⟨decode_eq_invalidLength_iff, fun s I rest hcalls hlen => ?_⟩
  have hdec : decode I = .error (.invalidLength I.length) := (decode_eq_invalidLength_iff I _).mpr ⟨hlen, rfl⟩
  exact step_of_decodeInstr_error hcalls (decodeInstr_of_decode_error hdec)

/-- Settles O10: the step reports the one of the decoder's two errors that an ill-formed input ends in. -/
theorem decoderChecksComeFirst : Obligations.DecoderChecksComeFirst := by
  intro s I rest hcalls hwf
  obtain ⟨e, hdec, he⟩ := decode_of_not_wellFormed hwf
  obtain ⟨t, hstep, hout, -⟩ := step_of_decodeInstr_error hcalls (decodeInstr_of_decode_error hdec)
  exact ⟨t, e, hstep, hout, he⟩

end Sys2Proof.Machine

/-! ### O7, O8: the opcode classes and the function code -/

namespace Sys2Proof.Machine

/-! #### The four class signals are the dispatcher's four classes -/

theorem isArith_iff (d : Decoded) : isArith d = true ↔ d.opcode = 0b000000#6 := beq_iff_eq

theorem isStore_iff (d : Decoded) : isStore d = true ↔ d.opcode = 0b000001#6 := beq_iff_eq

theorem isRecall_iff (d : Decoded) : isRecall d = true ↔ d.opcode = 0b100001#6 := beq_iff_eq

theorem opInvalid_iff (d : Decoded) :
    opInvalid d = true ↔ ¬ (isArith d = true ∨ isStore d = true ∨ isRecall d = true) := by
  simp [opInvalid, and_assoc]

theorem classify_eq_arith_iff (d : Decoded) : classify d.opcode = .arith ↔ isArith d = true := by
  obtain ⟨harith, -⟩ := classify_eq d.opcode
  rw [isArith_iff, harith]

theorem classify_eq_store_iff (d : Decoded) : classify d.opcode = .store ↔ isStore d = true := by
  obtain ⟨-, hstore, -⟩ := classify_eq d.opcode
  rw [isStore_iff, hstore]

theorem classify_eq_recallLast_iff (d : Decoded) : classify d.opcode = .recallLast ↔ isRecall d = true := by
  obtain ⟨-, -, hrecall, -⟩ := classify_eq d.opcode
  rw [isRecall_iff, hrecall]

/-- The fourth class is what the first three leave. -/
theorem classify_eq_invalid_iff (d : Decoded) : classify d.opcode = .invalid ↔ opInvalid d = true := by
  rw [opInvalid_iff, ← classify_eq_arith_iff, ← classify_eq_store_iff, ← classify_eq_recallLast_iff]
  cases classify d.opcode <;> simp

/-- An opcode has one class, so one signal is true. -/
theorem count_classSignals (d : Decoded) : [isArith d, isStore d, isRecall d, opInvalid d].count true = 1 := by
  have harith : isArith d = decide (classify d.opcode = .arith) := by simp [classify_eq_arith_iff]
  have hstore : isStore d = decide (classify d.opcode = .store) := by simp [classify_eq_store_iff]
  have hrecall : isRecall d = decide (classify d.opcode = .recallLast) := by simp [classify_eq_recallLast_iff]
  have hinvalid : opInvalid d = decide (classify d.opcode = .invalid) := by simp [classify_eq_invalid_iff]
  rw [harith, hstore, hrecall, hinvalid]
  cases classify d.opcode <;> rfl

/-! #### The classes that do not look at the function code -/

theorem selectInstr_of_store {d : Decoded} (h : classify d.opcode = .store) : selectInstr d = .ok (.store d.imm10) := by
  simp only [selectInstr, h]

theorem selectInstr_of_recallLast {d : Decoded} (h : classify d.opcode = .recallLast) :
    selectInstr d = .ok .recallLast := by
  simp only [selectInstr, h]

theorem selectInstr_of_invalid {d : Decoded} (h : classify d.opcode = .invalid) :
    selectInstr d = .error (.invalidOpcode d.opcode) := by
  simp only [selectInstr, h]

/-- Settles O7: each signal is one class of the dispatcher, and an opcode has one class. -/
theorem exactlyOneOpcodeClass : Obligations.ExactlyOneOpcodeClass := by
  refine ⟨fun d => ⟨isArith_iff d, isStore_iff d, isRecall_iff d, opInvalid_iff d, count_classSignals d,
    classify_eq_arith_iff d, classify_eq_store_iff d, classify_eq_recallLast_iff d, classify_eq_invalid_iff d⟩,
    fun d hop => ?_⟩
  have hclass : classify d.opcode = .invalid := by rw [hop]; rfl
  exact ⟨(classify_eq_invalid_iff d).mp hclass, by rw [selectInstr_of_invalid hclass, hop]; rfl⟩

/-- Settles O8: the function code of each operation selects it, and the arms of STORE and RECALL do not name the
function code. -/
theorem functionCodeSelectsTheOperation : Obligations.FunctionCodeSelectsTheOperation := by
  refine ⟨fun f op => ?_, rfl, fun d f hclass => ?_⟩
  · rw [aluSel_eq_some_iff]
    cases op <;> simp [functionCode]
  · rcases hclass with hstore | hrecall
    · have hc := (classify_eq_store_iff d).mpr hstore
      exact (selectInstr_of_store (d := { d with funct := f }) hc).trans (selectInstr_of_store hc).symm
    · have hc := (classify_eq_recallLast_iff d).mpr hrecall
      exact (selectInstr_of_recallLast (d := { d with funct := f }) hc).trans (selectInstr_of_recallLast hc).symm

end Sys2Proof.Machine

/-! ### The write signals, and the calls that raise them -/

namespace Sys2Proof.Machine

/-! #### What the decoder accepts, as a signal and as an instruction -/

/-- `decode_ok` is the decoder's acceptance, and the record is that of the field slicing. -/
theorem decode_eq_ok_iff (I : List Char) (d : Decoded) :
    decode I = .ok d ↔ decodeOk I = true ∧ d = sliceFields I := by
  have hfields : Field.layout.all (fieldOk I) = true ↔ firstBadField I = none := by
    simp [firstBadField, List.find?_eq_none]
  rcases decode_cases I with ⟨hlen, hdec⟩ | ⟨f, -, hbad, hdec⟩ | ⟨hlen, hnone, hdec⟩
  · simp [decodeOk, hlen, hdec]
  · simp [decodeOk, hfields, hbad, hdec]
  · simp [decodeOk, hfields, hlen, hnone, hdec, eq_comm]

/-- An instruction is read from a record of the decoder. -/
theorem decodeInstr_eq_ok_iff (I : List Char) (i : Instr) :
    decodeInstr I = .ok i ↔ ∃ d, decode I = .ok d ∧ selectInstr d = .ok i := by
  cases hdec : decode I <;> simp [decodeInstr, hdec]

theorem selectInstr_eq_store_iff (d : Decoded) (v : Payload) :
    selectInstr d = .ok (.store v) ↔ isStore d = true ∧ v = d.imm10 := by
  simp [selectInstr_eq_ok_iff, isStore_iff, (arithInstr_ne_store _ _ _ _).symm]

theorem selectInstr_eq_arithInstr_iff (d : Decoded) (sel : AluOp) (rs1 rs2 : SrcIndex) :
    selectInstr d = .ok (arithInstr sel rs1 rs2) ↔
      (d.opcode = 0b000000#6 ∧ aluSel d.funct = some sel) ∧ rs1 = d.rs1 ∧ rs2 = d.rs2 := by
  simp [selectInstr_eq_ok_iff, aluSel_eq_some_iff, arithInstr_ne_store, arithInstr_ne_recallLast,
    arithInstr_eq_arithInstr_iff]

/-! #### `num_we` -/

/-- R102's enable over the decoder's record. -/
theorem numWe_iff (I : List Char) : numWe I = true ↔ ∃ d, decode I = .ok d ∧ isStore d = true := by
  simp [numWe, decode_eq_ok_iff, and_assoc]

theorem numWdata_of_decode {I : List Char} {d : Decoded} (h : decode I = .ok d) : numWdata I = d.imm10 := by
  obtain ⟨-, rfl⟩ := (decode_eq_ok_iff I d).mp h
  rfl

/-- The calls that raise `num_we` are those that decode to STORE, and the write data is the payload. -/
theorem decodeInstr_eq_store_iff (I : List Char) (v : Payload) :
    decodeInstr I = .ok (.store v) ↔ numWe I = true ∧ v = numWdata I := by
  simp [decodeInstr_eq_ok_iff, selectInstr_eq_store_iff, decode_eq_ok_iff, numWe, numWdata, and_assoc]

/-- With `num_we` the call is a STORE of the write data. -/
theorem execCall_of_numWe {I : List Char} (h : numWe I = true) (s : State) :
    execCall I s = emit (.stored s.nslot (numWdata I)) (s.storeNumber (numWdata I)) := by
  have hdec : decodeInstr I = .ok (.store (numWdata I)) := (decodeInstr_eq_store_iff I _).mpr ⟨h, rfl⟩
  simp only [execCall, hdec, exec, execStore]

/-- Every instruction but STORE leaves the number bank and its cursor. -/
theorem exec_sameNumbers {i : Instr} (h : ∀ v, i ≠ .store v) (s : State) :
    ∃ t, exec i s = .next t ∧ s.SameNumbers t := by
  rcases exec_cases i s with ⟨v, hi, -⟩ | ⟨-, -, hexec⟩ | ⟨sel, -, -, a, b, -, -, -, -, hexec⟩ | ⟨-, -, hexec⟩ |
    ⟨-, -, -, e, -, -, hexec⟩
  · exact absurd hi (h v)
  · exact ⟨_, hexec, s.advanceWalk_num, s.advanceWalk_nslot⟩
  · exact ⟨_, hexec, s.storeHistory_num (aluRes sel a b), s.storeHistory_nslot (aluRes sel a b)⟩
  · exact ⟨_, hexec, s.report_num _, s.report_nslot _⟩
  · exact ⟨_, hexec, s.report_num _, s.report_nslot _⟩

/-- Without `num_we` the call leaves the number bank and its cursor. -/
theorem execCall_of_not_numWe {I : List Char} (h : numWe I = false) (s : State) :
    ∃ t, execCall I s = .next t ∧ s.SameNumbers t := by
  rcases execCall_cases I s with ⟨e, -, hcall⟩ | ⟨i, hi, hcall⟩
  · exact ⟨_, hcall, s.report_num _, s.report_nslot _⟩
  · have hne : ∀ v, i ≠ .store v := by
      rintro v rfl
      obtain ⟨hwe, -⟩ := (decodeInstr_eq_store_iff I v).mp hi
      simp [h] at hwe
    rw [hcall]
    exact exec_sameNumbers hne s

/-! #### `hist_we` -/

/-- A read port shows what `load_number` answers, for an index in the bank. -/
theorem State.loadNumber_eq_ok_iff (s : State) (a : SrcIndex) (v : Int) :
    s.loadNumber a = .ok v ↔ inBank a = true ∧ v = readPort s a := by
  by_cases ha : a.toNat < 22
  · simp [s.loadNumber_of_lt a ha, inBank, readPort, ha, eq_comm]
  · simp [s.loadNumber_of_ge a (by omega), inBank, ha]

/-- R105's enable, written out from the loads and the selected operation. -/
theorem histWe_iff (I : List Char) (s : State) :
    histWe I s = true ↔ ∃ d a b sel, decode I = .ok d ∧ d.opcode = 0b000000#6 ∧ aluSel d.funct = some sel ∧
      s.loadNumber d.rs1 = .ok a ∧ s.loadNumber d.rs2 = .ok b ∧ ¬ (sel = .div ∧ b = 0) := by
  simp only [decode_eq_ok_iff, State.loadNumber_eq_ok_iff, ← isArith_iff]
  constructor
  · intro h
    simp only [histWe, Bool.and_eq_true, Option.isSome_iff_exists] at h
    obtain ⟨⟨⟨⟨⟨hok, harith⟩, sel, hsel⟩, hin1⟩, hin2⟩, hdiv⟩ := h
    exact ⟨_, _, _, sel, ⟨hok, rfl⟩, harith, hsel, ⟨hin1, rfl⟩, ⟨hin2, rfl⟩, by simpa [hsel, imp_iff_not_or] using hdiv⟩
  · rintro ⟨_, _, _, sel, ⟨hok, rfl⟩, harith, hsel, ⟨hin1, rfl⟩, ⟨hin2, rfl⟩, hdiv⟩
    simpa [histWe, hok, harith, hsel, hin1, hin2, imp_iff_not_or] using hdiv

/-- R106's write data is the ALU's result on the loaded operands. -/
theorem histWdata_of_loads {I : List Char} {s : State} {d : Decoded} {a b : Int} {sel : AluOp}
    (hdec : decode I = .ok d) (hsel : aluSel d.funct = some sel) (ha : s.loadNumber d.rs1 = .ok a)
    (hb : s.loadNumber d.rs2 = .ok b) : histWdata I s = aluRes sel a b := by
  obtain ⟨-, rfl⟩ := (decode_eq_ok_iff I d).mp hdec
  obtain ⟨-, rfl⟩ := (s.loadNumber_eq_ok_iff _ a).mp ha
  obtain ⟨-, rfl⟩ := (s.loadNumber_eq_ok_iff _ b).mp hb
  simp only [histWdata, hsel]

/-- An arithmetic instruction with both operands loaded and no zero divisor completes. -/
theorem execArith_of_loads {sel : AluOp} {rs1 rs2 : SrcIndex} {s : State} {a b : Int} (ha : s.loadNumber rs1 = .ok a)
    (hb : s.loadNumber rs2 = .ok b) (hdiv : ¬ (sel = .div ∧ b = 0)) :
    execArith sel rs1 rs2 s = emit (.result sel (aluRes sel a b)) (s.storeHistory (aluRes sel a b)) := by
  have halu : alu sel a b = .ok (aluRes sel a b) := by
    rcases alu_cases sel a b with ⟨hsel, hzero, -⟩ | ⟨-, halu⟩
    · exact absurd ⟨hsel, hzero⟩ hdiv
    · exact halu
  simp only [execArith, State.loadOperands, ha, hb, halu]

/-- With `hist_we` the call completes an arithmetic instruction whose result is the write data. -/
theorem execCall_of_histWe {I : List Char} {s : State} (h : histWe I s = true) :
    ∃ op, execCall I s = emit (.result op (histWdata I s)) (s.storeHistory (histWdata I s)) := by
  obtain ⟨d, a, b, sel, hdec, hop, hsel, ha, hb, hdiv⟩ := (histWe_iff I s).mp h
  have hinstr : decodeInstr I = .ok (arithInstr sel d.rs1 d.rs2) :=
    (decodeInstr_eq_ok_iff I _).mpr ⟨d, hdec, (selectInstr_eq_arithInstr_iff d sel _ _).mpr ⟨⟨hop, hsel⟩, rfl, rfl⟩⟩
  refine ⟨sel, ?_⟩
  rw [histWdata_of_loads hdec hsel ha hb]
  simp only [execCall, hinstr, exec_arithInstr, execArith_of_loads ha hb hdiv]

/-- A call that decodes to an arithmetic instruction with both operands loaded and no zero divisor raises
`hist_we`. -/
theorem histWe_of_decodeInstr {I : List Char} {s : State} {sel : AluOp} {rs1 rs2 : SrcIndex} {a b : Int}
    (hinstr : decodeInstr I = .ok (arithInstr sel rs1 rs2)) (ha : s.loadNumber rs1 = .ok a)
    (hb : s.loadNumber rs2 = .ok b) (hdiv : ¬ (sel = .div ∧ b = 0)) : histWe I s = true := by
  obtain ⟨d, hdec, hselect⟩ := (decodeInstr_eq_ok_iff I _).mp hinstr
  obtain ⟨⟨hop, hsel⟩, rfl, rfl⟩ := (selectInstr_eq_arithInstr_iff d sel rs1 rs2).mp hselect
  exact (histWe_iff I s).mpr ⟨d, a, b, sel, hdec, hop, hsel, ha, hb, hdiv⟩

/-- Without `hist_we` the call reports no result, and leaves the history ring and its two write cursors; a RECALL may
move the walk. -/
theorem execCall_of_not_histWe {I : List Char} {s : State} (h : histWe I s = false) :
    ∃ t o, execCall I s = .next t ∧ t.outcomes = s.outcomes ++ [o] ∧ (∀ op v, o ≠ .result op v) ∧
      t.hist = s.hist ∧ t.hwp = s.hwp ∧ t.hcount = s.hcount := by
  rcases execCall_cases I s with ⟨e, -, hcall⟩ | ⟨i, hi, hcall⟩
  · exact ⟨_, _, hcall, s.report_outcomes _, by simp, s.report_hist _, s.report_hwp _, s.report_hcount _⟩
  · rw [hcall]
    rcases exec_cases i s with ⟨v, -, hexec⟩ | ⟨-, -, hexec⟩ | ⟨sel, rs1, rs2, a, b, rfl, ha, hb, hdiv, -⟩ |
      ⟨-, -, hexec⟩ | ⟨-, -, -, e, -, -, hexec⟩
    · exact ⟨_, _, hexec, State.report_outcomes _ _, by simp, s.storeNumber_hist v, s.storeNumber_hwp v,
        s.storeNumber_hcount v⟩
    · exact ⟨_, _, hexec, State.report_outcomes _ _, by simp, s.advanceWalk_hist, s.advanceWalk_hwp,
        s.advanceWalk_hcount⟩
    · simp [histWe_of_decodeInstr hi ha hb hdiv] at h
    · exact ⟨_, _, hexec, s.report_outcomes _, by simp, s.report_hist _, s.report_hwp _, s.report_hcount _⟩
    · exact ⟨_, _, hexec, s.report_outcomes _, by simp, s.report_hist _, s.report_hwp _, s.report_hcount _⟩

end Sys2Proof.Machine

/-! ### O26, O27, O28: the number bank and its cursor -/

namespace Sys2Proof.Machine

/-- A call writes the number bank exactly at `num_we`, where the cursor stands at a register that takes writes. -/
theorem execCall_number (I : List Char) (s : State) (hslot : s.nslot ≠ 0) :
    ∃ t, execCall I s = .next t ∧
      ∀ i, t.number i = if numWe I = true ∧ i = numWaddr s then numWdata I else s.number i := by
  cases hwe : numWe I with
  | true =>
    refine ⟨_, execCall_of_numWe hwe s, fun i => ?_⟩
    rw [State.number_congr (State.report_num _ _), State.storeNumber_number]
    simp [numWaddr, hslot]
  | false =>
    obtain ⟨t, hcall, hnum, -⟩ := execCall_of_not_numWe hwe s
    refine ⟨t, hcall, fun i => ?_⟩
    simp [State.number_congr hnum]

/-- The cursor's range 1..21: its type bounds it above, the invariant below. -/
theorem State.Inv.numWaddr_bounds {s : State} (h : s.Inv) : 1 ≤ (numWaddr s).val ∧ (numWaddr s).val ≤ 21 := by
  have hne : s.nslot.val ≠ 0 := fun h0 => h.nslot_ne_zero (Fin.ext h0)
  have hlt : s.nslot.val < 22 := s.nslot.isLt
  simp only [numWaddr]
  omega

/-- Settles O26: the step's call writes the bank under `num_we` alone, and the invariant keeps the cursor off
register 0. -/
theorem numberBankWrittenExactlyByStore : Obligations.NumberBankWrittenExactlyByStore := by
  intro s I rest hcalls hinv
  obtain ⟨hlow, hhigh⟩ := hinv.numWaddr_bounds
  refine ⟨numWe_iff I, ⟨hlow, hhigh, rfl⟩, fun d => numWdata_of_decode, ?_⟩
  rw [step_of_calls_cons hcalls]
  exact execCall_number I { s with calls := rest } hinv.nslot_ne_zero

/-- R103's formula for the cursor's advance. -/
theorem nextSlot_eq (n : Fin 22) : nextSlot n = if n = 21 then 1 else n + 1 := rfl

/-- A call advances the store cursor, and reports the slot used, exactly at `num_we`. -/
theorem execCall_nslot (I : List Char) (s : State) :
    ∃ t, execCall I s = .next t ∧
      (numWe I = true → t.nslot = nextSlot s.nslot ∧ t.outcomes = s.outcomes ++ [.stored s.nslot (numWdata I)]) ∧
      (numWe I = false → t.nslot = s.nslot) := by
  cases hwe : numWe I with
  | true =>
    have hcall := execCall_of_numWe hwe s
    exact ⟨_, hcall, fun _ => ⟨s.storeNumber_nslot (numWdata I), State.report_outcomes _ _⟩, by simp⟩
  | false =>
    obtain ⟨t, hcall, -, hslot⟩ := execCall_of_not_numWe hwe s
    exact ⟨t, hcall, by simp, fun _ => hslot⟩

/-- Settles O27: the cursor follows `num_we` in the step's call, and its advance goes round the slots 1..21. -/
theorem storeCursorAdvancesExactlyOnStore : Obligations.StoreCursorAdvancesExactlyOnStore := by
  refine ⟨fun s I rest hcalls => ?_, by decide, nextSlot_ne_zero, nextSlot_eq⟩
  rw [step_of_calls_cons hcalls]
  exact execCall_nslot I { s with calls := rest }

/-- Settles O28: the three ranges of the index, and the spec's examples on the fresh block as two of their cases. -/
theorem loadNumberReadsTheBank : Obligations.LoadNumberReadsTheBank := by
  intro s a
  refine ⟨s.loadNumber_of_ge a, ?_, fun i hi ha => ?_, State.reset.loadNumber_ofNat 5,
    State.reset.loadNumber_of_ge 22 (by decide)⟩
  · rintro rfl
    exact s.loadNumber_ofNat 0
  · have hindex : a = BitVec.ofNat 5 i.val := by rw [← ha, BitVec.ofNat_toNat, BitVec.setWidth_eq]
    rw [hindex, s.loadNumber_ofNat, s.number_of_ne_zero hi]

end Sys2Proof.Machine

/-! ### O40: the history ring -/

namespace Sys2Proof.Machine

/-- A call reports a result, and writes it to the history ring at the write cursor, exactly at `hist_we`. -/
theorem execCall_history (I : List Char) (s : State) :
    ∃ t o, execCall I s = .next t ∧ t.outcomes = s.outcomes ++ [o] ∧
      (histWe I s = true ↔ ∃ op, o = .result op (histWdata I s)) ∧
      (histWe I s = true ↔ ∃ op v, o = .result op v) ∧
      (∀ j, t.histAt j = if histWe I s = true ∧ j = s.hwp then histWdata I s else s.histAt j) ∧
      (histWe I s = false → t.hwp = s.hwp ∧ t.hcount = s.hcount) := by
  cases hwe : histWe I s with
  | true =>
    obtain ⟨op, hcall⟩ := execCall_of_histWe hwe
    refine ⟨_, _, hcall, State.report_outcomes _ _, by simp, by simp, fun j => ?_, by simp⟩
    rw [State.histAt_congr (State.report_hist _ _), State.histAt_storeHistory]
    simp
  | false =>
    obtain ⟨t, o, hcall, hout, hne, hhist, hhwp, hhcount⟩ := execCall_of_not_histWe hwe
    refine ⟨t, o, hcall, hout, by simp [hne], by simp [hne], fun j => ?_, fun _ => ⟨hhwp, hhcount⟩⟩
    simp [State.histAt_congr hhist]

/-- Settles O40: the enable and the data are those of the loads and the ALU, and the step's call follows them. -/
theorem historyWrittenExactlyWhenEnabled : Obligations.HistoryWrittenExactlyWhenEnabled := by
  intro s I rest hcalls
  refine ⟨histWe_iff I s, fun d a b sel => histWdata_of_loads, rfl, ?_⟩
  rw [step_of_calls_cons hcalls]
  exact execCall_history I { s with calls := rest }

end Sys2Proof.Machine

/-! ### O31, O32: the ALU -/

namespace Sys2Proof.Machine

/-- The ALU fails on a division by zero alone (R124). -/
theorem alu_of_not_div_zero {sel : AluOp} {b : Int} (h : ¬ (sel = .div ∧ b = 0)) (a : Int) :
    alu sel a b = .ok (aluRes sel a b) := by
  rcases alu_cases sel a b with ⟨hsel, hzero, -⟩ | ⟨-, halu⟩
  · exact absurd ⟨hsel, hzero⟩ h
  · exact halu

theorem alu_div_zero (a : Int) : alu .div a 0 = .error .divisionByZero := by
  rcases alu_cases .div a 0 with ⟨-, -, halu⟩ | ⟨h, -⟩
  · exact halu
  · exact absurd ⟨rfl, rfl⟩ h

/-- The magnitude of the quotient is that of the operands' magnitudes, rounded down. -/
theorem natAbs_aluTdiv (a b : Int) : (aluTdiv a b).natAbs = a.natAbs / b.natAbs := Int.natAbs_tdiv a b

/-- R125's formula. A quotient of 0 has no sign, but then the magnitude in the formula is 0 too. -/
theorem aluTdiv_eq_sign_mul (a b : Int) :
    aluTdiv a b = Int.sign a * Int.sign b * ((a.natAbs / b.natAbs : Nat) : Int) := by
  by_cases hlt : a.natAbs < b.natAbs
  · have hzero : a.natAbs / b.natAbs = 0 := Nat.div_eq_of_lt hlt
    have hq : aluTdiv a b = 0 := by rw [← Int.natAbs_eq_zero, natAbs_aluTdiv, hzero]
    rw [hq, hzero, Nat.cast_zero, mul_zero]
  · have hsign : (aluTdiv a b).sign = a.sign * b.sign := (Int.sign_tdiv a b).trans (if_neg hlt)
    rw [← hsign, ← natAbs_aluTdiv, Int.sign_mul_natAbs]

/-- Rounding toward zero: the quotient's magnitude is the greatest whose product with the divisor's stays within the
dividend's. -/
theorem aluTdiv_magnitude_bounds (a : Int) {b : Int} (hb : b ≠ 0) :
    (aluTdiv a b).natAbs * b.natAbs ≤ a.natAbs ∧ a.natAbs < ((aluTdiv a b).natAbs + 1) * b.natAbs := by
  rw [natAbs_aluTdiv]
  exact ⟨Nat.div_mul_le_self _ _, Nat.lt_mul_of_div_lt (Nat.lt_succ_self _) (Int.natAbs_pos.mpr hb)⟩

/-- Settles O32: the formula and the rounding at every sign, and the table's rows by evaluation. -/
theorem quotientTruncatesTowardZero : Obligations.QuotientTruncatesTowardZero :=
  ⟨fun a b hb => ⟨aluTdiv_eq_sign_mul a b, aluTdiv_magnitude_bounds a hb⟩,
    rfl, rfl, rfl, rfl, rfl, fun b _ => Int.zero_tdiv b⟩

/-- Settles O31: every operation but the division by zero answers its exact result. -/
theorem aluComputesExactly : Obligations.AluComputesExactly := by
  intro a b
  refine ⟨alu_of_not_div_zero (by simp) a, alu_of_not_div_zero (by simp) a, alu_of_not_div_zero (by simp) a, ?_,
    fun hb => alu_of_not_div_zero (by simp [hb]) a, alu_of_not_div_zero (by decide) (-5)⟩
  rintro rfl
  exact alu_div_zero a

end Sys2Proof.Machine

/-! ### O17: the opcodes that no instruction has -/

namespace Sys2Proof.Machine

/-- A word whose opcode is none of the three decodes to that opcode as the error, whatever its other fields hold. -/
theorem decodeInstr_symbolsOf_of_invalid {w : Word} (h : classify w.opcode = .invalid) :
    decodeInstr (symbolsOf w) = .error (.invalidOpcode w.opcode) := by
  rw [decodeInstr_symbolsOf]
  exact selectInstr_of_invalid h

/-- Settles O17: an opcode other than the three is of the invalid class, so its word does not decode and the step
reports the opcode; the count is by evaluation over the 64 opcodes. -/
theorem otherOpcodesAreInvalidOpcode : Obligations.OtherOpcodesAreInvalidOpcode := by
  refine ⟨fun s w rest hcalls harith hstore hrecall => ?_, by decide⟩
  obtain ⟨-, -, -, hinvalid⟩ := classify_eq w.opcode
  have hclass : classify w.opcode = .invalid := hinvalid.mpr ⟨harith, hstore, hrecall⟩
  exact step_of_decodeInstr_error hcalls (decodeInstr_symbolsOf_of_invalid hclass)

end Sys2Proof.Machine

/-! ### O46: the number snapshot -/

namespace Sys2Proof.Machine

/-- The snapshot lists the registers by index. -/
theorem State.snapNumbers_eq_ofFn (s : State) : s.snapNumbers = List.ofFn s.number := List.ofFn_eq_map.symm

theorem State.length_snapNumbers (s : State) : s.snapNumbers.length = 22 := by
  rw [s.snapNumbers_eq_ofFn, List.length_ofFn]

theorem State.getElem?_snapNumbers (s : State) (i : Fin 22) : s.snapNumbers[i.val]? = some (s.number i) := by
  rw [s.snapNumbers_eq_ofFn, List.getElem?_ofFn, dif_pos i.isLt]

/-- Settles O46: each place of the snapshot shows the read of its register, and register 0 reads 0. -/
theorem numberSnapshotShowsTheBank : Obligations.NumberSnapshotShowsTheBank := by
  intro s
  have hzero : s.snapNumbers[0]? = some 0 := by rw [← s.number_zero]; exact s.getElem?_snapNumbers 0
  exact ⟨s.length_snapNumbers, s.getElem?_snapNumbers, hzero⟩

end Sys2Proof.Machine

/-! ### O45: construction -/

namespace Sys2Proof.Machine

@[simp] theorem State.init_eq_reset (label : String) : State.init label = State.reset := rfl

@[simp] theorem State.reset_num_get (i : Fin 22) : State.reset.num.get i = 0 :=
  Vector.getElem_replicate i.isLt

@[simp] theorem State.reset_number (i : Fin 22) : State.reset.number i = 0 := by
  by_cases hi : i = 0
  · rw [hi, State.number_zero]
  · rw [State.number_of_ne_zero _ hi, State.reset_num_get]

@[simp] theorem State.reset_histAt (j : Fin 10) : State.reset.histAt j = 0 :=
  Vector.getElem_replicate j.isLt

/-- A slot is absent when `hcount` does not reach it (R24): at 0, every slot is. -/
theorem State.history_eq_nil_iff (s : State) : s.history = [] ↔ s.hcount = 0 := by
  rw [State.history, List.map_eq_nil_iff, List.range_eq_nil]

/-- Settles O45: the label is dropped, both banks read zero at every index, and no history slot is valid as `hcount`
is 0; the cursors are the fields of the reset state. -/
theorem constructionLeavesTheResetState : Obligations.ConstructionLeavesTheResetState := by
  intro label
  rw [State.init_eq_reset]
  have hhistory : State.reset.history = [] := State.reset.history_eq_nil_iff.mpr rfl
  exact ⟨State.reset_number, State.reset_num_get, State.reset_histAt, hhistory, rfl, rfl, rfl, rfl⟩

end Sys2Proof.Machine

/-! ### What one call does, said once for the statements about every step -/

namespace Sys2Proof.Machine

/-- The four ways a call on `s` can end: its outcome, and the block with the writes that go with that outcome. -/
inductive CallEffect (s : State) : ExecOutcome → State → Prop
  /-- A STORE. -/
  | stored (v : Payload) : CallEffect s (.stored s.nslot v) (s.storeNumber v)
  /-- A RECALL with a value left in the walk. -/
  | recalled (hleft : s.rdepth < s.hcount) :
      CallEffect s (.recalled (s.histAt (recallAddr s.hwp s.rdepth))) s.advanceWalk
  /-- An arithmetic instruction with both operands loaded and no zero divisor. -/
  | result {sel : AluOp} {rs1 rs2 : SrcIndex} {a b : Int} (ha : s.loadNumber rs1 = .ok a)
      (hb : s.loadNumber rs2 = .ok b) (hdiv : ¬ (sel = .div ∧ b = 0)) :
      CallEffect s (.result sel (aluRes sel a b)) (s.storeHistory (aluRes sel a b))
  /-- An error; `NoHistory` only where the walk has nothing left. -/
  | error (e : ExecError) (hwalk : e = .noHistory → s.hcount ≤ s.rdepth) : CallEffect s (.error e) s

/-- `NoHistory` is no error of decoding. -/
theorem decodeInstr_ne_noHistory (I : List Char) : decodeInstr I ≠ .error .noHistory := by
  rcases decode_cases I with ⟨-, hdec⟩ | ⟨f, -, -, hdec⟩ | ⟨-, -, hdec⟩
  · simp [decodeInstr, hdec]
  · simp [decodeInstr, hdec]
  · simp only [decodeInstr, hdec]
    rcases selectInstr_cases (sliceFields I) with ⟨-, h⟩ | ⟨-, h⟩ | ⟨-, h⟩ | ⟨-, -, h⟩ |
      ⟨-, ⟨-, h⟩ | ⟨-, h⟩ | ⟨-, h⟩ | ⟨-, h⟩⟩ <;> simp [h]

theorem exec_effect (i : Instr) (s : State) : ∃ o u, CallEffect s o u ∧ exec i s = .next (u.report o) := by
  rcases exec_cases i s with ⟨v, -, hexec⟩ | ⟨-, hleft, hexec⟩ | ⟨sel, rs1, rs2, a, b, -, ha, hb, hdiv, hexec⟩ |
    ⟨-, hnone, hexec⟩ | ⟨-, -, -, e, -, hne, hexec⟩
  · exact ⟨_, _, .stored v, hexec⟩
  · exact ⟨_, _, .recalled hleft, hexec⟩
  · exact ⟨_, _, .result ha hb hdiv, hexec⟩
  · exact ⟨_, _, .error .noHistory fun _ => hnone, hexec⟩
  · exact ⟨_, _, .error e fun h => absurd h hne, hexec⟩

theorem execCall_effect (I : List Char) (s : State) :
    ∃ o u, CallEffect s o u ∧ execCall I s = .next (u.report o) := by
  rcases execCall_cases I s with ⟨e, hdec, hcall⟩ | ⟨i, -, hcall⟩
  · exact ⟨_, _, .error e fun h => absurd (h ▸ hdec) (decodeInstr_ne_noHistory I), hcall⟩
  · rw [hcall]
    exact exec_effect i s

/-- The record of the port is written by `report` alone. -/
theorem CallEffect.outcomes_eq {s u : State} {o : ExecOutcome} (h : CallEffect s o u) : u.outcomes = s.outcomes := by
  cases h <;> rfl

/-- A step on a pending call: its effect on the block without that call, then its outcome. -/
theorem step_effect {s t : State} {I : List Char} {rest : List (List Char)} (hcalls : s.calls = I :: rest)
    (hstep : step s = .next t) :
    ∃ o u, CallEffect { s with calls := rest } o u ∧ t = u.report o ∧ t.outcomes = s.outcomes ++ [o] := by
  obtain ⟨o, u, heff, hcall⟩ := execCall_effect I { s with calls := rest }
  rw [step_of_calls_cons hcalls, hcall] at hstep
  cases hstep
  exact ⟨o, u, heff, rfl, by rw [State.report_outcomes, heff.outcomes_eq]⟩

/-- Two readings of the outcome a step added agree. -/
theorem outcome_unique {before after : List ExecOutcome} {o o' : ExecOutcome} (h : after = before ++ [o])
    (h' : after = before ++ [o']) : o = o' := by
  simpa using h.symm.trans h'

end Sys2Proof.Machine

/-! ### O1: the decoder reads back what the encoder writes -/

namespace Sys2Proof.Machine

/-- Settles O1: the symbols of a word give back its fields, and the fields of an instruction's word select that
instruction. -/
theorem decodeOfEncodeIsTheInstruction : Obligations.DecodeOfEncodeIsTheInstruction := by
  intro i
  rw [encode, decodeInstr_symbolsOf, selectInstr_eq_ok_iff]
  rcases instr_kinds i with ⟨v, rfl⟩ | rfl | ⟨op, a, b, rfl⟩
  · exact .inl (by simp [encodeWord])
  · exact .inr (.inl (by simp [encodeWord]))
  · exact .inr (.inr ⟨op, by simp [encodeWord_arithInstr]⟩)

end Sys2Proof.Machine

/-! ### O48, O49: the invariant -/

namespace Sys2Proof.Machine

/-- The invariant speaks of the block alone, not of the port. -/
theorem State.Inv.of_sameBlock {s t : State} (h : s.Inv) (hsame : s.SameBlock t) : t.Inv := by
  obtain ⟨⟨hnum, hnslot⟩, hhist, hhwp, hhcount, hrdepth⟩ := hsame
  exact {
    nslot_ne_zero := hnslot ▸ h.nslot_ne_zero
    num_zero := hnum ▸ h.num_zero
    hcount_le := hhcount ▸ h.hcount_le
    rdepth_le := by rw [hrdepth, hhcount]; exact h.rdepth_le
    hwp_eq := by rw [hhwp, hhcount]; exact h.hwp_eq
    absent_zero := fun j => by rw [hhcount, State.histAt_congr hhist]; exact h.absent_zero j
    hist_range := fun j => by rw [State.histAt_congr hhist]; exact h.hist_range j }

/-- Settles O48: both banks are zero and every counter is 0. -/
theorem resetMeetsTheInvariant : Obligations.ResetMeetsTheInvariant where
  nslot_ne_zero := by decide
  num_zero := State.reset_num_get 0
  hcount_le := Nat.zero_le 10
  rdepth_le := le_refl 0
  hwp_eq _ := rfl
  absent_zero j _ := State.reset_histAt j
  hist_range j := by simp

theorem State.Inv.storeNumber {s : State} (h : s.Inv) (v : Payload) : (s.storeNumber v).Inv where
  nslot_ne_zero := nextSlot_ne_zero s.nslot
  num_zero := by rw [State.storeNumber_num, State.writeNumber_num_get_zero]; exact h.num_zero
  hcount_le := h.hcount_le
  rdepth_le := h.rdepth_le
  hwp_eq := h.hwp_eq
  absent_zero := h.absent_zero
  hist_range := h.hist_range

theorem State.Inv.advanceWalk {s : State} (h : s.Inv) (hleft : s.rdepth < s.hcount) : s.advanceWalk.Inv where
  nslot_ne_zero := h.nslot_ne_zero
  num_zero := h.num_zero
  hcount_le := h.hcount_le
  rdepth_le := hleft
  hwp_eq := h.hwp_eq
  absent_zero := h.absent_zero
  hist_range := h.hist_range

/-- Before the ring has wrapped, the write goes to the first absent slot, so those after it stay zero. -/
theorem State.Inv.storeHistory {s : State} (h : s.Inv) {v : Int} (hv : -1023 ≤ v ∧ v ≤ 1046529) :
    (s.storeHistory v).Inv where
  nslot_ne_zero := h.nslot_ne_zero
  num_zero := h.num_zero
  hcount_le := min_le_right _ _
  rdepth_le := Nat.zero_le _
  hwp_eq hlt := by
    have hbefore := h.hwp_eq
    simp only [State.storeHistory_hcount, State.storeHistory_hwp, nextHwp_val] at hlt ⊢
    omega
  absent_zero j hj := by
    have hbefore := h.hwp_eq
    rw [State.storeHistory_hcount] at hj
    have hne : j ≠ s.hwp := by rintro rfl; omega
    rw [State.histAt_storeHistory, if_neg hne]
    exact h.absent_zero j (by omega)
  hist_range j := by
    rw [State.histAt_storeHistory]
    split
    · exact hv
    · exact h.hist_range j

/-- Every way a call can end keeps the invariant; a result is in range since its operands have 10 bits. -/
theorem CallEffect.inv {s u : State} {o : ExecOutcome} (heff : CallEffect s o u) (h : s.Inv) : u.Inv := by
  cases heff with
  | stored v => exact h.storeNumber v
  | recalled hleft => exact h.advanceWalk hleft
  | result ha hb hdiv =>
    obtain ⟨-, hra⟩ := State.loadNumber_eq_ok ha
    obtain ⟨-, hrb⟩ := State.loadNumber_eq_ok hb
    exact h.storeHistory (aluRes_bounds _ hra hrb)
  | error e hwalk => exact h

/-- Settles O49: an idle step changes nothing, and a call ends in one of its four ways. -/
theorem everyStepKeepsTheInvariant : Obligations.EveryStepKeepsTheInvariant := by
  intro s t hinv hstep
  cases hcalls : s.calls with
  | nil =>
    rw [step_of_calls_nil hcalls] at hstep
    cases hstep
    exact hinv
  | cons I rest =>
    obtain ⟨o, u, heff, rfl, -⟩ := step_effect hcalls hstep
    have htaken : ({ s with calls := rest } : State).Inv := hinv.of_sameBlock ⟨⟨rfl, rfl⟩, rfl, rfl, rfl, rfl⟩
    exact (heff.inv htaken).of_sameBlock (u.sameBlock_report o)

end Sys2Proof.Machine

/-! ### O41, O42: the history ring as a list, and the walk over it -/

namespace Sys2Proof.Machine

/-- The list of results is read from the ring, its write cursor and its count. -/
theorem State.history_congr {s t : State} (hhist : t.hist = s.hist) (hhwp : t.hwp = s.hwp)
    (hhcount : t.hcount = s.hcount) : t.history = s.history := by
  simp only [State.history, State.histAt, hhist, hhwp, hhcount]

theorem State.SameHistory.history_eq {s t : State} (h : s.SameHistory t) : t.history = s.history := by
  obtain ⟨hhist, hhwp, hhcount, -⟩ := h
  exact State.history_congr hhist hhwp hhcount

theorem State.SameHistory.walk_eq {s t : State} (h : s.SameHistory t) : t.walk = s.walk := by
  have hhistory := h.history_eq
  obtain ⟨-, -, -, hrdepth⟩ := h
  rw [State.walk, State.walk, hhistory, hrdepth]

@[simp] theorem State.length_history (s : State) : s.history.length = s.hcount := by simp [State.history]

theorem State.length_walk (s : State) : s.walk.length = s.hcount - s.rdepth := by simp [State.walk]

theorem State.walk_eq_nil_iff (s : State) : s.walk = [] ↔ s.hcount ≤ s.rdepth := by
  rw [← List.length_eq_zero_iff, State.length_walk, Nat.sub_eq_zero_iff_le]

/-- A result restarts the walk. -/
theorem State.walk_storeHistory (s : State) (v : Int) : (s.storeHistory v).walk = (s.storeHistory v).history := by
  rw [State.walk, State.storeHistory_rdepth, List.drop_zero]

/-- The slot that RECALL reads holds the walk's next value. -/
theorem State.walk_eq_cons {s : State} (h : s.rdepth < s.hcount) :
    s.walk = s.histAt (recallAddr s.hwp s.rdepth) :: s.advanceWalk.walk := by
  have hlt : s.rdepth < s.history.length := by rwa [State.length_history]
  have hhistory : s.advanceWalk.history = s.history := State.history_congr rfl rfl rfl
  rw [State.walk, List.drop_eq_getElem_cons hlt, State.walk, hhistory, State.advanceWalk_rdepth]
  simp [State.history]

theorem State.sameHistory_report (s : State) (o : ExecOutcome) : s.SameHistory (s.report o) :=
  ⟨s.report_hist o, s.report_hwp o, s.report_hcount o, s.report_rdepth o⟩

/-- Settles O41: a result is put before the list, a RECALL takes the walk's first value, and STOREs and errors leave
the history side as it is. -/
theorem historyRingIsTheTenNewestResults : Obligations.HistoryRingIsTheTenNewestResults := by
  intro s t I rest hcalls _ hstep
  obtain ⟨o, u, heff, rfl, hout⟩ := step_effect hcalls hstep
  have hreport := u.sameHistory_report o
  rw [hreport.history_eq, hreport.walk_eq]
  cases heff with
  | result ha hb hdiv => exact .inl ⟨_, _, hout, State.history_storeHistory _ _, State.walk_storeHistory _ _⟩
  | recalled hleft =>
    have hnext := State.walk_eq_cons (s := { s with calls := rest }) hleft
    exact .inr (.inl ⟨_, hout, State.history_congr rfl rfl rfl, hnext⟩)
  | stored v => exact .inr (.inr ⟨⟨_, hout, by simp, by simp, by simp⟩, rfl, rfl⟩)
  | error e hwalk =>
    have hnone : ExecOutcome.error e = .error .noHistory → s.walk = [] := by
      rintro ⟨⟩
      exact s.walk_eq_nil_iff.mpr (hwalk rfl)
    exact .inr (.inr ⟨⟨_, hout, by simp, by simp, hnone⟩, rfl, rfl⟩)

end Sys2Proof.Machine

/-! ### O11, O12, O13: from the pending call to the instruction -/

namespace Sys2Proof.Machine

/-- Settles O11: the symbols the spec writes out are those the encoder writes, which decode back. -/
theorem sampleWordsDecode : Obligations.SampleWordsDecode :=
  ⟨decodeOfEncodeIsTheInstruction (.store 5), decodeOfEncodeIsTheInstruction .recallLast,
    decodeOfEncodeIsTheInstruction (.add 1 2), decodeOfEncodeIsTheInstruction (.sub 1 2),
    decodeOfEncodeIsTheInstruction (.mul 1 2), decodeOfEncodeIsTheInstruction (.div 2 1)⟩

/-- A step on a pending call that decodes runs its instruction on the state without the call. -/
theorem step_of_decodeInstr_ok {s : State} {I : List Char} {rest : List (List Char)} {i : Instr}
    (hcalls : s.calls = I :: rest) (hdec : decodeInstr I = .ok i) : step s = exec i { s with calls := rest } := by
  rw [step_of_calls_cons hcalls]
  simp only [execCall, hdec]

/-- A step on the symbols of an instruction runs it. -/
theorem step_encode {s : State} {i : Instr} {rest : List (List Char)} (hcalls : s.calls = encode i :: rest) :
    step s = exec i { s with calls := rest } :=
  step_of_decodeInstr_ok hcalls (decodeOfEncodeIsTheInstruction i)

theorem decodeTableWord_eq_some_iff (nbits w : Nat) (i : Instr) :
    decodeTableWord nbits w = some i ↔ decodeInstr (tableSymbols nbits w) = .ok i := by
  cases hdec : decodeInstr (tableSymbols nbits w) <;> simp [decodeTableWord, hdec]

/-- Settles O12: a placed table word is the first pending call, and taking it gives back the state it was placed in. -/
theorem stepRunsTheDecodedInstruction : Obligations.StepRunsTheDecodedInstruction := by
  refine ⟨fun s I rest i => step_of_decodeInstr_ok, fun s nbits w i htable => ?_⟩
  have hfirst : (s.withFetchWord nbits w).calls = tableSymbols nbits w :: s.calls := s.callFirst_calls _
  exact step_of_decodeInstr_ok hfirst ((decodeTableWord_eq_some_iff nbits w i).mp htable)

/-- Settles O13: there is no call to take. -/
theorem stepWithoutACallIdles : Obligations.StepWithoutACallIdles := fun _ => step_of_calls_nil

end Sys2Proof.Machine

/-! ### O15: runs -/

namespace Sys2Proof.Machine

theorem runSteps_zero (s : State) : runSteps 0 s = .next s := rfl

/-- A run with no call pending idles. -/
theorem runSteps_of_calls_nil {s : State} (h : s.calls = []) (k : Nat) : runSteps k s = .next s := by
  induction k with
  | zero => exact runSteps_zero s
  | succ k ih => rw [runSteps_succ (step_of_calls_nil h), ih]

/-- A run of `k` steps takes `k` calls, or all there are, and gives one outcome for each. -/
theorem runSteps_outcomes (k : Nat) (s : State) :
    ∃ t os, runSteps k s = .next t ∧ t.calls = s.calls.drop k ∧ t.outcomes = s.outcomes ++ os ∧
      os.length = min k s.calls.length := by
  induction k generalizing s with
  | zero => exact ⟨s, [], runSteps_zero s, rfl, by simp, by simp⟩
  | succ k ih =>
    cases hcalls : s.calls with
    | nil => exact ⟨s, [], runSteps_of_calls_nil hcalls _, by simpa using hcalls, by simp, by simp⟩
    | cons I rest =>
      obtain ⟨t, o, hstep, hout, hrest⟩ := everyCallGivesExactlyOneOutcome s I rest hcalls
      obtain ⟨u, os, hrun, hleft, houts, hlen⟩ := ih t
      refine ⟨u, o :: os, (runSteps_succ hstep k).trans hrun, by rw [hleft, hrest, List.drop_succ_cons], ?_, ?_⟩
      · simp [houts, hout]
      · simp [hlen, hrest]

/-- Past its calls a run idles. -/
theorem runSteps_of_calls_length_le {k : Nat} {s : State} (h : s.calls.length ≤ k) :
    runSteps k s = runSteps s.calls.length s := by
  induction k generalizing s with
  | zero => rw [Nat.le_zero.mp h]
  | succ k ih =>
    cases hcalls : s.calls with
    | nil => rw [runSteps_of_calls_nil hcalls, runSteps_of_calls_nil hcalls]
    | cons I rest =>
      obtain ⟨t, -, hstep, -, hrest⟩ := everyCallGivesExactlyOneOutcome s I rest hcalls
      have hle : t.calls.length ≤ k := by simpa [hcalls, hrest] using h
      rw [runSteps_succ hstep, ih hle, List.length_cons, runSteps_succ hstep, hrest]

/-- Settles O15: one outcome a call, and the model's idling past the last call (log entry 11). -/
theorem everyRunGivesOneOutcomePerCall : Obligations.EveryRunGivesOneOutcomePerCall :=
  fun k s => ⟨runSteps_outcomes k s, runSteps_of_calls_length_le⟩

end Sys2Proof.Machine

/-! ### O21, O39, O42: RECALL -/

namespace Sys2Proof.Machine

/-- The error `raise` takes leaves everything but the outcomes. -/
theorem raise_errorResult (e : ExecError) (s : State) : ∃ t, raise e s = .next t ∧ s.ErrorResult e t :=
  ⟨_, rfl, s.report_outcomes _, s.sameBlock_report _, s.report_calls _⟩

/-- RECALL with a value left in the walk. -/
theorem exec_recallLast_of_lt {s : State} (h : s.rdepth < s.hcount) :
    exec .recallLast s = emit (.recalled (s.histAt (recallAddr s.hwp s.rdepth))) s.advanceWalk := by
  rcases execRecall_cases s with ⟨-, hexec⟩ | ⟨hge, -⟩
  · exact hexec
  · omega

/-- RECALL with no value left in the walk. -/
theorem exec_recallLast_of_ge {s : State} (h : s.hcount ≤ s.rdepth) : exec .recallLast s = raise .noHistory s := by
  rcases execRecall_cases s with ⟨hlt, -⟩ | ⟨-, hexec⟩
  · omega
  · exact hexec

/-- Settles O21: whether a value is left decides, and the two outcomes differ. -/
theorem recallWithNothingLeftIsNoHistory : Obligations.RecallWithNothingLeftIsNoHistory := by
  refine fun s => ⟨fun hnone => ?_, fun hleft t hexec hout => ?_⟩
  · rw [exec_recallLast_of_ge hnone]
    exact raise_errorResult .noHistory s
  · rw [exec_recallLast_of_lt hleft] at hexec
    cases hexec
    cases outcome_unique (State.report_outcomes _ _) hout

/-- Settles O39: the slot is that of `recallAddr`, and the walk advances. -/
theorem recallReturnsTheNextOlderValue : Obligations.RecallReturnsTheNextOlderValue :=
  fun s hleft => ⟨recallAddr s.hwp s.rdepth, _, recallAddr_val _ _, exec_recallLast_of_lt hleft,
    State.report_outcomes _ _, rfl, rfl, rfl, rfl, ⟨rfl, rfl⟩, rfl⟩

/-- What `k` consecutive RECALLs make of `s`. -/
structure AfterRecalls (k : Nat) (s t : State) : Prop where
  outcomes : t.outcomes = s.outcomes ++ (s.walk.take k).map .recalled ++
    List.replicate (k - s.walk.length) (.error .noHistory)
  rdepth : t.rdepth = min (s.rdepth + k) s.hcount
  hist : t.hist = s.hist
  hwp : t.hwp = s.hwp
  hcount : t.hcount = s.hcount
  numbers : s.SameNumbers t

/-- A pending RECALL with a value left in the walk. -/
theorem step_recallLast_of_lt {s : State} {rest : List (List Char)} (hcalls : s.calls = encode .recallLast :: rest)
    (hleft : s.rdepth < s.hcount) :
    step s = .next { s.advanceWalk.report (.recalled (s.histAt (recallAddr s.hwp s.rdepth))) with calls := rest } :=
  (step_encode hcalls).trans (exec_recallLast_of_lt hleft)

/-- A pending RECALL with no value left in the walk. -/
theorem step_recallLast_of_ge {s : State} {rest : List (List Char)} (hcalls : s.calls = encode .recallLast :: rest)
    (hnone : s.hcount ≤ s.rdepth) : step s = .next { s.report (.error .noHistory) with calls := rest } :=
  (step_encode hcalls).trans (exec_recallLast_of_ge hnone)

/-- The first RECALL takes the walk's next value; the others take the walk that is left. -/
theorem AfterRecalls.cons_recalled {k : Nat} {s t : State} {rest : List (List Char)} (hleft : s.rdepth < s.hcount)
    (h : AfterRecalls k
      { s.advanceWalk.report (.recalled (s.histAt (recallAddr s.hwp s.rdepth))) with calls := rest } t) :
    AfterRecalls (k + 1) s t := by
  obtain ⟨hout, hrdepth, hhist, hhwp, hhcount, hnumbers⟩ := h
  have hwalk := State.walk_eq_cons hleft
  refine ⟨?_, ?_, hhist, hhwp, hhcount, hnumbers⟩
  · rw [hout, hwalk, List.take_succ_cons, List.length_cons, Nat.add_sub_add_right]
    simp only [State.report_outcomes, State.advanceWalk_outcomes, List.map_cons, List.append_assoc, List.cons_append,
      List.nil_append]
    rfl
  · rw [hrdepth, State.report_rdepth, State.advanceWalk_rdepth, Nat.add_right_comm]
    rfl

/-- With nothing left the first RECALL fails, and leaves the others nothing either. -/
theorem AfterRecalls.cons_noHistory {k : Nat} {s t : State} {rest : List (List Char)} (hnone : s.hcount ≤ s.rdepth)
    (h : AfterRecalls k { s.report (.error .noHistory) with calls := rest } t) : AfterRecalls (k + 1) s t := by
  obtain ⟨hout, hrdepth, hhist, hhwp, hhcount, hnumbers⟩ := h
  have hwalk : s.walk = [] := s.walk_eq_nil_iff.mpr hnone
  refine ⟨?_, ?_, hhist, hhwp, hhcount, hnumbers⟩
  · change t.outcomes = (s.outcomes ++ [.error .noHistory]) ++ (s.walk.take k).map .recalled ++
      List.replicate (k - s.walk.length) (.error .noHistory) at hout
    rw [hout, hwalk]
    simp [List.replicate_succ]
  · change t.rdepth = min (s.rdepth + k) s.hcount at hrdepth
    omega

/-- `k` consecutive RECALLs, one after the other. -/
theorem runSteps_recalls (k : Nat) (s : State) (hle : s.rdepth ≤ s.hcount)
    (hcalls : s.calls = List.replicate k (encode .recallLast)) : ∃ t, runSteps k s = .next t ∧ AfterRecalls k s t := by
  induction k generalizing s with
  | zero => exact ⟨s, runSteps_zero s, by simp, by simpa using hle, rfl, rfl, rfl, rfl, rfl⟩
  | succ k ih =>
    rw [List.replicate_succ] at hcalls
    by_cases hleft : s.rdepth < s.hcount
    · obtain ⟨t, hrun, hafter⟩ := ih
        { s.advanceWalk.report (.recalled (s.histAt (recallAddr s.hwp s.rdepth))) with calls := _ } hleft rfl
      exact ⟨t, (runSteps_succ (step_recallLast_of_lt hcalls hleft) k).trans hrun, hafter.cons_recalled hleft⟩
    · have hnone : s.hcount ≤ s.rdepth := Nat.le_of_not_lt hleft
      obtain ⟨t, hrun, hafter⟩ := ih { s.report (.error .noHistory) with calls := _ } hle rfl
      exact ⟨t, (runSteps_succ (step_recallLast_of_ge hcalls hnone) k).trans hrun, hafter.cons_noHistory hnone⟩

/-- Settles O42, by induction on the number of RECALLs. -/
theorem consecutiveRecallsReturnTheWalk : Obligations.ConsecutiveRecallsReturnTheWalk := by
  intro k s hinv hcalls
  obtain ⟨t, hrun, hafter⟩ := runSteps_recalls k s hinv.rdepth_le hcalls
  exact ⟨t, hrun, hafter.outcomes, s.length_walk, hafter.rdepth, hafter.hist, hafter.hwp, hafter.hcount,
    hafter.numbers⟩

end Sys2Proof.Machine

/-! ### O24, O25, O30: STORE -/

namespace Sys2Proof.Machine

/-- A STORE stages its write and reports the slot. -/
theorem exec_store (p : Payload) (s : State) : exec (.store p) s = emit (.stored s.nslot p) (s.storeNumber p) := rfl

/-- The bank's places after a write of a register other than register 0. -/
theorem State.writeNumber_num_get (s : State) {i : Fin 22} (hi : i ≠ 0) (v : Payload) (j : Fin 22) :
    (s.writeNumber i v).num.get j = if j = i then v else s.num.get j := by
  rw [State.writeNumber_num, if_neg hi]
  by_cases hij : j = i
  · subst hij
    simp [Vector.get_eq_getElem]
  · have : i.val ≠ j.val := fun h => hij (Fin.ext h.symm)
    simp [Vector.get_eq_getElem, this, hij]

theorem State.storeNumber_number_of_ne_zero {s : State} (hslot : s.nslot ≠ 0) (v : Payload) (j : Fin 22) :
    (s.storeNumber v).number j = if j = s.nslot then v else s.number j := by
  simp [State.storeNumber_number, hslot]

/-- Settles O24: the write of the register at the cursor, then the cursor's advance. -/
theorem storeWritesTheRegisterAtTheCursor : Obligations.StoreWritesTheRegisterAtTheCursor := by
  intro p s hslot
  refine ⟨_, exec_store p s, State.report_outcomes _ _, fun i => ?_, fun i => ?_, ?_, ⟨rfl, rfl, rfl, rfl⟩, rfl⟩
  · rw [State.number_congr (State.report_num _ _), State.storeNumber_number_of_ne_zero hslot]
  · rw [State.report_num, State.storeNumber_num, State.writeNumber_num_get _ hslot]
  · rw [State.report_nslot, State.storeNumber_nslot, nextSlot_val]

/-- Settles O25: the write aimed at register 0 is discarded. -/
theorem storeAtSlotZeroWritesNoRegister : Obligations.StoreAtSlotZeroWritesNoRegister := by
  intro p s hslot
  refine ⟨_, exec_store p s, ?_, ?_, ?_, ⟨rfl, rfl, rfl, rfl⟩, rfl⟩
  · rw [State.report_outcomes, State.storeNumber_outcomes, hslot]
  · rw [State.report_num, State.storeNumber_num, State.writeNumber_num, if_pos hslot]
  · rw [State.report_nslot, State.storeNumber_nslot, hslot]
    rfl

/-! #### Slots 1..21, round and round -/

theorem slotAfter_zero {n : Fin 22} (hn : n ≠ 0) : slotAfter n 0 = n := by
  have hpos : n.val ≠ 0 := fun h => hn (Fin.ext h)
  apply Fin.ext
  simp only [slotAfter]
  omega

theorem slotAfter_nextSlot {n : Fin 22} (hn : n ≠ 0) (k : Nat) : slotAfter (nextSlot n) k = slotAfter n (k + 1) := by
  have hpos : n.val ≠ 0 := fun h => hn (Fin.ext h)
  have hnext := nextSlot_val n
  apply Fin.ext
  simp only [slotAfter]
  split at hnext <;> omega

/-- A slot comes again after 21 STOREs, not before. -/
theorem slotAfter_succ_ne {n : Fin 22} {k : Nat} (hk : k < 20) : slotAfter n (k + 1) ≠ n := by
  intro h
  have hval := congrArg Fin.val h
  simp only [slotAfter] at hval
  omega

/-! #### Any number of STOREs -/

/-- What consecutive STOREs of the payloads `ps` make of `s`; `others` is what an induction needs of the registers
that later STOREs leave alone. -/
structure AfterStores (ps : List Payload) (s t : State) : Prop where
  nslot : t.nslot = slotAfter s.nslot ps.length
  outcomes : t.outcomes = s.outcomes ++ ps.mapIdx (fun k p => .stored (slotAfter s.nslot k) p)
  last : ∀ k (h : k < ps.length), ps.length ≤ k + 21 → t.number (slotAfter s.nslot k) = ps[k]
  others : ∀ i, (∀ k < ps.length, slotAfter s.nslot k ≠ i) → t.number i = s.number i
  history : s.SameHistory t

/-- A pending STORE. -/
theorem step_store {s : State} {p : Payload} {rest : List (List Char)} (hcalls : s.calls = encode (.store p) :: rest) :
    step s = .next { (s.storeNumber p).report (.stored s.nslot p) with calls := rest } :=
  (step_encode hcalls).trans (exec_store p _)

/-- The first STORE's payload stands unless the others come round to its slot. -/
theorem AfterStores.cons {p : Payload} {ps : List Payload} {s t : State} {rest : List (List Char)}
    (hslot : s.nslot ≠ 0)
    (h : AfterStores ps { (s.storeNumber p).report (.stored s.nslot p) with calls := rest } t) :
    AfterStores (p :: ps) s t := by
  obtain ⟨hnslot, hout, hlast, hothers, hhistory⟩ := h
  simp only [State.report_nslot, State.storeNumber_nslot, slotAfter_nextSlot hslot] at hnslot hout hlast hothers
  have hfirst (i : Fin 22) (hi : ∀ k < ps.length, slotAfter s.nslot (k + 1) ≠ i) :
      t.number i = if i = s.nslot then p else s.number i :=
    (hothers i hi).trans (State.storeNumber_number_of_ne_zero hslot p i)
  refine ⟨hnslot, ?_, fun k hk hle => ?_, fun i hi => ?_, hhistory⟩
  · rw [hout, State.report_outcomes, State.storeNumber_outcomes, List.mapIdx_cons, slotAfter_zero hslot,
      List.append_assoc, List.singleton_append]
  · rw [List.length_cons] at hk hle
    cases k with
    | zero =>
      have hround : ∀ k < ps.length, slotAfter s.nslot (k + 1) ≠ s.nslot := fun k hk => slotAfter_succ_ne (by omega)
      rw [slotAfter_zero hslot, hfirst _ hround, if_pos rfl, List.getElem_cons_zero]
    | succ k => exact hlast k (by omega) (by omega)
  · have hne : s.nslot ≠ i := slotAfter_zero hslot ▸ hi 0 (Nat.succ_pos _)
    rw [hfirst i fun k hk => hi (k + 1) (Nat.succ_lt_succ hk), if_neg hne.symm]

/-- Consecutive STOREs, one after the other. -/
theorem runSteps_stores (ps : List Payload) (s : State) (hslot : s.nslot ≠ 0)
    (hcalls : s.calls = ps.map fun p => encode (.store p)) :
    ∃ t, runSteps ps.length s = .next t ∧ AfterStores ps s t := by
  induction ps generalizing s with
  | nil =>
    exact ⟨s, runSteps_zero s, (slotAfter_zero hslot).symm, by simp, fun k hk => absurd hk (Nat.not_lt_zero k),
      fun _ _ => rfl, rfl, rfl, rfl, rfl⟩
  | cons p ps ih =>
    obtain ⟨t, hrun, hafter⟩ := ih { (s.storeNumber p).report (.stored s.nslot p) with calls := _ }
      (nextSlot_ne_zero s.nslot) rfl
    exact ⟨t, (runSteps_succ (step_store hcalls) _).trans hrun, hafter.cons hslot⟩

/-- Settles O30, by induction on the payloads. -/
theorem consecutiveStoresFillTheSlotsInTurn : Obligations.ConsecutiveStoresFillTheSlotsInTurn := by
  intro ps s hslot hcalls
  obtain ⟨t, hrun, hafter⟩ := runSteps_stores ps s hslot hcalls
  exact ⟨t, hrun, hafter.nslot, hafter.outcomes, hafter.last, hafter.history⟩

end Sys2Proof.Machine

/-! ### O6: the symbol check -/

namespace Sys2Proof.Machine

/-- Something holds of every field exactly when it holds of each of the five. -/
theorem forall_field_iff (P : Field → Prop) :
    (∀ f, P f) ↔ P .opcode ∧ P .sourceOne ∧ P .sourceTwo ∧ P .payload ∧ P .functionCode := by
  constructor
  · exact fun h => ⟨h _, h _, h _, h _, h _⟩
  · rintro ⟨h1, h2, h3, h4, h5⟩ (_ | _ | _ | _ | _) <;> assumption

/-- The field reported is bad, and those that start before it are not. -/
theorem firstBadField_eq_some_iff (I : List Char) (f : Field) :
    firstBadField I = some f ↔ fieldOk I f = false ∧ ∀ g : Field, g.bounds.1 < f.bounds.1 → fieldOk I g = true := by
  rw [forall_field_iff]
  cases f <;> simp [firstBadField, Field.layout, List.find?_cons_eq_some, Field.bounds] <;> tauto

theorem fieldOk_eq_true_iff (I : List Char) (f : Field) :
    fieldOk I f = true ↔ ∀ c ∈ slice I f.bounds.1 f.bounds.2, c = '0' ∨ c = '1' := by
  simp [fieldOk, fieldSymbols, isBinary]

theorem fieldOk_eq_false_iff (I : List Char) (f : Field) :
    fieldOk I f = false ↔ ∃ c ∈ slice I f.bounds.1 f.bounds.2, c ≠ '0' ∧ c ≠ '1' := by
  simp [← Bool.not_eq_true, fieldOk_eq_true_iff]

/-- With 32 symbols the decoder reports what the symbol check finds. -/
theorem decode_eq_malformedBits_iff {I : List Char} (hlen : I.length = 32) (f : Field) :
    decode I = .error (.malformedBits f) ↔ firstBadField I = some f := by
  cases hbad : firstBadField I <;> simp [decode, hlen, hbad]

/-- Settles O6: the decoder reports the first bad field, in the order in which the fields start. -/
theorem firstBadFieldIsMalformedBits : Obligations.FirstBadFieldIsMalformedBits := by
  intro I f hlen
  simp only [decode_eq_malformedBits_iff hlen, firstBadField_eq_some_iff, fieldOk_eq_false_iff, fieldOk_eq_true_iff]

end Sys2Proof.Machine

/-! ### O9, O18: the fields an instruction uses -/

namespace Sys2Proof.Machine

/-- The arithmetic arms do not name the payload. -/
theorem selectInstr_of_arith {d : Decoded} (h : classify d.opcode = .arith) (p : Payload) :
    selectInstr { d with imm10 := p } = selectInstr d := by
  simp only [selectInstr, h]

/-- Settles O9: each class's arm names the fields its instructions use, and no others. -/
theorem ignoredFieldsDoNotChangeTheInstruction : Obligations.IgnoredFieldsDoNotChangeTheInstruction := by
  intro w v hop
  obtain ⟨harith, hstore, hrecall, -⟩ := classify_eq v.opcode
  simp only [decodeInstr_symbolsOf, hop]
  refine ⟨fun ho hp => ?_, fun ho => ?_, fun ho h1 h2 hf => ?_⟩
  · rw [selectInstr_of_store (hstore.mpr ho), selectInstr_of_store (hstore.mpr ho), hp]
  · rw [selectInstr_of_recallLast (hrecall.mpr ho), selectInstr_of_recallLast (hrecall.mpr ho)]
  · rw [h1, h2, hf]
    exact selectInstr_of_arith (d := ⟨v.opcode, v.rs1, v.rs2, v.imm10, v.funct⟩) (harith.mpr ho) w.imm10

theorem selectInstr_of_aluSel_none {d : Decoded} (hclass : classify d.opcode = .arith) (hsel : aluSel d.funct = none) :
    selectInstr d = .error (.invalidFunction d.funct) := by
  simp only [selectInstr, hclass, hsel]

/-- The function codes that select no operation. -/
theorem aluSel_eq_none_iff (f : Funct) :
    aluSel f = none ↔ f ≠ 0b100000#6 ∧ f ≠ 0b100010#6 ∧ f ≠ 0b011000#6 ∧ f ≠ 0b011010#6 := by
  revert f; decide

/-- Settles O18: under opcode 000000 the other function codes select nothing, so the word does not decode and the step
reports the code; the count is by evaluation over the 64 codes. -/
theorem otherFunctionCodesAreInvalidFunction : Obligations.OtherFunctionCodesAreInvalidFunction := by
  refine ⟨fun s w rest hcalls hop hadd hsub hmul hdiv => ?_, by decide⟩
  have hclass : classify w.opcode = .arith := (classify_eq w.opcode).1.mpr hop
  have hsel : aluSel w.funct = none := (aluSel_eq_none_iff _).mpr ⟨hadd, hsub, hmul, hdiv⟩
  refine step_of_decodeInstr_error hcalls ?_
  rw [decodeInstr_symbolsOf]
  exact selectInstr_of_aluSel_none hclass hsel

end Sys2Proof.Machine

/-! ### O50: the clocked realisation -/

namespace Sys2Proof.Machine

/-! #### The outcome mux, by what the input decodes to -/

theorem outcomeMux_of_decode_error {I : List Char} {e : ExecError} (h : decode I = .error e) (s : State) :
    outcomeMux I s = .error e := by
  rcases decode_cases I with ⟨hlen, hdec⟩ | ⟨f, hlen, hbad, hdec⟩ | ⟨-, -, hdec⟩
  · rw [hdec] at h
    cases h
    simp [outcomeMux, hlen]
  · rw [hdec] at h
    cases h
    simp [outcomeMux, hlen, hbad]
  · rw [hdec] at h
    cases h

/-- Past the decoder's checks the class signals select. -/
theorem outcomeMux_of_decode_ok {I : List Char} {d : Decoded} (h : decode I = .ok d) (s : State) :
    outcomeMux I s =
      if opInvalid d then .error (.invalidOpcode d.opcode)
      else if isStore d then .stored s.nslot d.imm10
      else if isRecall d then (if s.recallOk then .recalled (recallPort s) else .error .noHistory)
      else arithOutcome d s := by
  rcases decode_cases I with ⟨-, hdec⟩ | ⟨f, -, -, hdec⟩ | ⟨hlen, hnone, hdec⟩ <;> rw [hdec] at h <;> cases h
  simp [outcomeMux, hlen, hnone, numWaddr, numWdata]

theorem outcomeMux_of_invalid {I : List Char} {d : Decoded} (hdec : decode I = .ok d)
    (hclass : classify d.opcode = .invalid) (s : State) : outcomeMux I s = .error (.invalidOpcode d.opcode) := by
  rw [outcomeMux_of_decode_ok hdec, if_pos ((classify_eq_invalid_iff d).mp hclass)]

theorem outcomeMux_of_store {I : List Char} {d : Decoded} (hdec : decode I = .ok d)
    (hclass : classify d.opcode = .store) (s : State) : outcomeMux I s = .stored s.nslot d.imm10 := by
  have hinvalid : ¬ opInvalid d = true := by simp [← classify_eq_invalid_iff, hclass]
  rw [outcomeMux_of_decode_ok hdec, if_neg hinvalid, if_pos ((classify_eq_store_iff d).mp hclass)]

theorem outcomeMux_of_recallLast {I : List Char} {d : Decoded} (hdec : decode I = .ok d)
    (hclass : classify d.opcode = .recallLast) (s : State) :
    outcomeMux I s = if s.recallOk then .recalled (recallPort s) else .error .noHistory := by
  have hinvalid : ¬ opInvalid d = true := by simp [← classify_eq_invalid_iff, hclass]
  have hstore : ¬ isStore d = true := by simp [← classify_eq_store_iff, hclass]
  rw [outcomeMux_of_decode_ok hdec, if_neg hinvalid, if_neg hstore, if_pos ((classify_eq_recallLast_iff d).mp hclass)]

theorem outcomeMux_of_arith {I : List Char} {d : Decoded} (hdec : decode I = .ok d)
    (hclass : classify d.opcode = .arith) (s : State) : outcomeMux I s = arithOutcome d s := by
  have hinvalid : ¬ opInvalid d = true := by simp [← classify_eq_invalid_iff, hclass]
  have hstore : ¬ isStore d = true := by simp [← classify_eq_store_iff, hclass]
  have hrecall : ¬ isRecall d = true := by simp [← classify_eq_recallLast_iff, hclass]
  rw [outcomeMux_of_decode_ok hdec, if_neg hinvalid, if_neg hstore, if_neg hrecall]

theorem arithOutcome_of_aluSel_none {d : Decoded} (h : aluSel d.funct = none) (s : State) :
    arithOutcome d s = .error (.invalidFunction d.funct) := by
  simp only [arithOutcome, h]

/-- Past the function code the operand checks select. -/
theorem arithOutcome_of_aluSel {d : Decoded} {sel : AluOp} (h : aluSel d.funct = some sel) (s : State) :
    arithOutcome d s =
      if !inBank d.rs1 then .error (.registerOutOfRange d.rs1)
      else if !inBank d.rs2 then .error (.registerOutOfRange d.rs2)
      else if div0 sel (readPort s d.rs2) then .error .divisionByZero
      else .result sel (aluRes sel (readPort s d.rs1) (readPort s d.rs2)) := by
  simp only [arithOutcome, h]

/-- A call that ends in the decoder's or the dispatcher's error. -/
theorem outcomeMux_of_decodeInstr_error {I : List Char} {e : ExecError} (h : decodeInstr I = .error e) (s : State) :
    outcomeMux I s = .error e := by
  cases hdec : decode I with
  | error e' =>
    rw [decodeInstr_of_decode_error hdec] at h
    cases h
    exact outcomeMux_of_decode_error hdec s
  | ok d =>
    have hselect : selectInstr d = .error e := by simpa only [decodeInstr, hdec] using h
    rcases selectInstr_cases d with ⟨-, hs⟩ | ⟨-, hs⟩ | ⟨hclass, hs⟩ | ⟨hclass, hsel, hs⟩ |
      ⟨-, ⟨-, hs⟩ | ⟨-, hs⟩ | ⟨-, hs⟩ | ⟨-, hs⟩⟩ <;> rw [hs] at hselect <;> cases hselect
    · exact outcomeMux_of_invalid hdec hclass s
    · rw [outcomeMux_of_arith hdec hclass, arithOutcome_of_aluSel_none hsel]

theorem selectInstr_eq_recallLast_iff (d : Decoded) :
    selectInstr d = .ok .recallLast ↔ classify d.opcode = .recallLast := by
  simp [selectInstr_eq_ok_iff, classify_eq_recallLast_iff, isRecall_iff, (arithInstr_ne_recallLast _ _ _).symm]

/-- A call that decodes to RECALL. -/
theorem outcomeMux_of_decodeInstr_recallLast {I : List Char} (h : decodeInstr I = .ok .recallLast) (s : State) :
    outcomeMux I s = if s.recallOk then .recalled (recallPort s) else .error .noHistory := by
  obtain ⟨d, hdec, hselect⟩ := (decodeInstr_eq_ok_iff I _).mp h
  exact outcomeMux_of_recallLast hdec ((selectInstr_eq_recallLast_iff d).mp hselect) s

/-- A call that decodes to an arithmetic instruction. -/
theorem outcomeMux_of_decodeInstr_arithInstr {I : List Char} {sel : AluOp} {rs1 rs2 : SrcIndex}
    (h : decodeInstr I = .ok (arithInstr sel rs1 rs2)) (s : State) :
    outcomeMux I s =
      if !inBank rs1 then .error (.registerOutOfRange rs1)
      else if !inBank rs2 then .error (.registerOutOfRange rs2)
      else if div0 sel (readPort s rs2) then .error .divisionByZero
      else .result sel (aluRes sel (readPort s rs1) (readPort s rs2)) := by
  obtain ⟨d, hdec, hselect⟩ := (decodeInstr_eq_ok_iff I _).mp h
  obtain ⟨⟨hop, hsel⟩, rfl, rfl⟩ := (selectInstr_eq_arithInstr_iff d sel rs1 rs2).mp hselect
  rw [outcomeMux_of_arith hdec ((classify_eq d.opcode).1.mpr hop), arithOutcome_of_aluSel hsel]

/-! #### The write signals, by what the input decodes to -/

theorem decodeInstr_of_numWe {I : List Char} (h : numWe I = true) : decodeInstr I = .ok (.store (numWdata I)) :=
  (decodeInstr_eq_store_iff I _).mpr ⟨h, rfl⟩

theorem decodeInstr_of_histWe {I : List Char} {s : State} (h : histWe I s = true) :
    ∃ sel rs1 rs2 a b, decodeInstr I = .ok (arithInstr sel rs1 rs2) ∧ s.loadNumber rs1 = .ok a ∧
      s.loadNumber rs2 = .ok b ∧ ¬ (sel = .div ∧ b = 0) ∧ histWdata I s = aluRes sel a b := by
  obtain ⟨d, a, b, sel, hdec, hop, hsel, ha, hb, hdiv⟩ := (histWe_iff I s).mp h
  have hselect := (selectInstr_eq_arithInstr_iff d sel _ _).mpr ⟨⟨hop, hsel⟩, rfl, rfl⟩
  exact ⟨sel, _, _, a, b, (decodeInstr_eq_ok_iff I _).mpr ⟨d, hdec, hselect⟩, ha, hb, hdiv,
    histWdata_of_loads hdec hsel ha hb⟩

/-- The walk advances on a RECALL with a value left. -/
theorem walkWe_iff (I : List Char) (s : State) :
    walkWe I s = true ↔ decodeInstr I = .ok .recallLast ∧ s.rdepth < s.hcount := by
  simp [walkWe, State.recallOk, decodeInstr_eq_ok_iff, selectInstr_eq_recallLast_iff, classify_eq_recallLast_iff,
    decode_eq_ok_iff]

/-! No two write signals are raised at once, since a call decodes to one instruction. -/

theorem histWe_of_numWe {I : List Char} (h : numWe I = true) (s : State) : histWe I s = false := by
  by_contra hhist
  obtain ⟨sel, rs1, rs2, -, -, hdec, -⟩ := decodeInstr_of_histWe (Bool.eq_true_of_not_eq_false hhist)
  rw [decodeInstr_of_numWe h, Except.ok.injEq] at hdec
  exact arithInstr_ne_store _ _ _ _ hdec.symm

theorem walkWe_of_numWe {I : List Char} (h : numWe I = true) (s : State) : walkWe I s = false := by
  rw [← Bool.not_eq_true, walkWe_iff, decodeInstr_of_numWe h]
  simp

theorem histWe_of_walkWe {I : List Char} {s : State} (h : walkWe I s = true) : histWe I s = false := by
  obtain ⟨hrecall, -⟩ := (walkWe_iff I s).mp h
  by_contra hhist
  obtain ⟨sel, rs1, rs2, -, -, hdec, -⟩ := decodeInstr_of_histWe (Bool.eq_true_of_not_eq_false hhist)
  rw [hrecall, Except.ok.injEq] at hdec
  exact arithInstr_ne_recallLast _ _ _ hdec.symm

theorem numWe_of_histWe {I : List Char} {s : State} (h : histWe I s = true) : numWe I = false := by
  by_contra hnum
  simp [histWe_of_numWe (Bool.eq_true_of_not_eq_false hnum)] at h

theorem numWe_of_walkWe {I : List Char} {s : State} (h : walkWe I s = true) : numWe I = false := by
  by_contra hnum
  simp [walkWe_of_numWe (Bool.eq_true_of_not_eq_false hnum)] at h

/-! #### The clock edge, by the signal that is raised -/

theorem clockEdge_of_numWe {I : List Char} (h : numWe I = true) (s : State) :
    clockEdge I s = (s.storeNumber (numWdata I)).report (outcomeMux I s) := by
  by_cases hslot : s.nslot = 0 <;>
    simp [clockEdge, h, histWe_of_numWe h, walkWe_of_numWe h, numWaddr, hslot, State.report, State.storeNumber,
      State.writeNumber]

theorem clockEdge_of_histWe {I : List Char} {s : State} (h : histWe I s = true) :
    clockEdge I s = (s.storeHistory (histWdata I s)).report (outcomeMux I s) := by
  simp [clockEdge, h, numWe_of_histWe h, histWaddr, State.report, State.storeHistory]

theorem clockEdge_of_walkWe {I : List Char} {s : State} (h : walkWe I s = true) :
    clockEdge I s = s.advanceWalk.report (outcomeMux I s) := by
  simp [clockEdge, h, numWe_of_walkWe h, histWe_of_walkWe h, State.report, State.advanceWalk]

theorem clockEdge_of_no_write {I : List Char} {s : State} (hnum : numWe I = false) (hhist : histWe I s = false)
    (hwalk : walkWe I s = false) : clockEdge I s = s.report (outcomeMux I s) := by
  simp [clockEdge, hnum, hhist, hwalk, State.report]

/-! #### The call, by the signal that is raised -/

/-- A call that decodes to a STORE. -/
theorem outcomeMux_of_numWe {I : List Char} (h : numWe I = true) (s : State) :
    outcomeMux I s = .stored s.nslot (numWdata I) := by
  obtain ⟨d, hdec, hstore⟩ := (numWe_iff I).mp h
  rw [outcomeMux_of_store hdec ((classify_eq_store_iff d).mpr hstore), numWdata_of_decode hdec]

/-- A call that completes an arithmetic instruction. -/
theorem execCall_eq_of_histWe {I : List Char} {s : State} (h : histWe I s = true) :
    execCall I s = .next ((s.storeHistory (histWdata I s)).report (outcomeMux I s)) := by
  obtain ⟨sel, rs1, rs2, a, b, hdec, ha, hb, hdiv, hdata⟩ := decodeInstr_of_histWe h
  have hcall : execCall I s = emit (.result sel (aluRes sel a b)) (s.storeHistory (aluRes sel a b)) := by
    simp only [execCall, hdec, exec_arithInstr, execArith_of_loads ha hb hdiv]
  have hmux : outcomeMux I s = .result sel (aluRes sel a b) := by
    obtain ⟨hin1, rfl⟩ := (s.loadNumber_eq_ok_iff rs1 a).mp ha
    obtain ⟨hin2, rfl⟩ := (s.loadNumber_eq_ok_iff rs2 b).mp hb
    have hnonzero : div0 sel (readPort s rs2) = false := by simpa [div0] using hdiv
    simp [outcomeMux_of_decodeInstr_arithInstr hdec, hin1, hin2, hnonzero]
  rw [hcall, hdata, hmux]
  rfl

/-- A call that completes a RECALL. -/
theorem execCall_eq_of_walkWe {I : List Char} {s : State} (h : walkWe I s = true) :
    execCall I s = .next (s.advanceWalk.report (outcomeMux I s)) := by
  obtain ⟨hdec, hleft⟩ := (walkWe_iff I s).mp h
  have hmux : outcomeMux I s = .recalled (s.histAt (recallAddr s.hwp s.rdepth)) := by
    simp [outcomeMux_of_decodeInstr_recallLast hdec, State.recallOk, hleft, recallPort]
  simp only [execCall, hdec, exec_recallLast_of_lt hleft, hmux]
  rfl

theorem inBank_eq_true_iff (a : SrcIndex) : inBank a = true ↔ a.toNat < 22 := decide_eq_true_iff

theorem inBank_eq_false_iff (a : SrcIndex) : inBank a = false ↔ 22 ≤ a.toNat := by simp [inBank]

/-- A call that raises no write signal ends in an error. -/
theorem execCall_eq_of_no_write {I : List Char} {s : State} (hnum : numWe I = false) (hhist : histWe I s = false)
    (hwalk : walkWe I s = false) : execCall I s = .next (s.report (outcomeMux I s)) := by
  suffices h : ∃ e, execCall I s = raise e s ∧ outcomeMux I s = .error e by
    obtain ⟨e, hcall, hmux⟩ := h
    rw [hcall, hmux]
    rfl
  rcases execCall_cases I s with ⟨e, hdec, hcall⟩ | ⟨i, hdec, hcall⟩
  · exact ⟨e, hcall, outcomeMux_of_decodeInstr_error hdec s⟩
  rw [hcall]
  rcases instr_kinds i with ⟨v, rfl⟩ | rfl | ⟨sel, rs1, rs2, rfl⟩
  · simp [(decodeInstr_eq_store_iff I v).mp hdec] at hnum
  · have hnone : s.hcount ≤ s.rdepth := by
      rw [← Bool.not_eq_true, walkWe_iff] at hwalk
      exact Nat.le_of_not_lt fun hleft => hwalk ⟨hdec, hleft⟩
    refine ⟨_, exec_recallLast_of_ge hnone, ?_⟩
    simp [outcomeMux_of_decodeInstr_recallLast hdec, State.recallOk, hnone]
  · rw [outcomeMux_of_decodeInstr_arithInstr hdec, exec_arithInstr]
    rcases execArith_cases sel rs1 rs2 s with ⟨h1, hexec⟩ | ⟨h1, h2, hexec⟩ | ⟨a, ha, hb, hsel, hexec⟩ |
      ⟨a, b, ha, hb, hdiv, -⟩
    · exact ⟨_, hexec, by simp [(inBank_eq_false_iff rs1).mpr h1]⟩
    · exact ⟨_, hexec, by simp [(inBank_eq_true_iff rs1).mpr h1, (inBank_eq_false_iff rs2).mpr h2]⟩
    · obtain ⟨hin1, -⟩ := (s.loadNumber_eq_ok_iff rs1 a).mp ha
      obtain ⟨hin2, hport⟩ := (s.loadNumber_eq_ok_iff rs2 0).mp hb
      exact ⟨_, hexec, by simp [hin1, hin2, div0, hsel, ← hport]⟩
    · simp [histWe_of_decodeInstr hdec ha hb hdiv] at hhist

/-- The clock edge is the call, whichever signal is raised. -/
theorem execCall_eq_clockEdge (I : List Char) (s : State) : execCall I s = .next (clockEdge I s) := by
  cases hnum : numWe I with
  | true =>
    rw [execCall_of_numWe hnum, clockEdge_of_numWe hnum, outcomeMux_of_numWe hnum]
    rfl
  | false =>
    cases hhist : histWe I s with
    | true => rw [execCall_eq_of_histWe hhist, clockEdge_of_histWe hhist]
    | false =>
      cases hwalk : walkWe I s with
      | true => rw [execCall_eq_of_walkWe hwalk, clockEdge_of_walkWe hwalk]
      | false => rw [execCall_eq_of_no_write hnum hhist hwalk, clockEdge_of_no_write hnum hhist hwalk]

/-- Settles O50: the step's call is the clock edge. -/
theorem clockedRealisationEqualsTheStep : Obligations.ClockedRealisationEqualsTheStep := by
  intro s I rest hcalls
  rw [step_of_calls_cons hcalls, execCall_eq_clockEdge]

end Sys2Proof.Machine

/-! ### O16, O23, O43: what a call reads and what it leaves -/

namespace Sys2Proof.Machine

/-- States with the same block differ in their record of the port alone. -/
theorem State.SameBlock.eq_with_port {s t : State} (h : s.SameBlock t) :
    t = { s with calls := t.calls, outcomes := t.outcomes } := by
  obtain ⟨⟨hnum, hnslot⟩, hhist, hhwp, hhcount, hrdepth⟩ := h
  rw [← hnum, ← hnslot, ← hhist, ← hhwp, ← hhcount, ← hrdepth]

/-- Settles O16, through the second design: no signal and no write of the clock edge reads the record of the port. -/
theorem aCallDependsOnTheBlockAlone : Obligations.ACallDependsOnTheBlockAlone := by
  intro s s' I rest rest' hcalls hcalls' hsame
  have hstep := clockedRealisationEqualsTheStep s I rest hcalls
  have hstep' := clockedRealisationEqualsTheStep s' I rest' hcalls'
  rw [hsame.eq_with_port] at hstep' ⊢
  exact ⟨_, _, outcomeMux I s, hstep, hstep', ⟨⟨rfl, rfl⟩, rfl, rfl, rfl, rfl⟩, rfl, rfl⟩

/-- What each way a call can end leaves of the block. -/
theorem CallEffect.frame {s u : State} {o : ExecOutcome} (h : CallEffect s o u) :
    match o with
    | .stored _ _ => s.SameHistory u
    | .result _ _ => s.SameNumbers u
    | .recalled _ => s.SameNumbers u ∧ u.hist = s.hist ∧ u.hwp = s.hwp ∧ u.hcount = s.hcount
    | .error _ => s.SameBlock u := by
  cases h with
  | stored v => exact ⟨rfl, rfl, rfl, rfl⟩
  | recalled hleft => exact ⟨⟨rfl, rfl⟩, rfl, rfl, rfl⟩
  | result ha hb hdiv => exact ⟨rfl, rfl⟩
  | error e hwalk => exact ⟨⟨rfl, rfl⟩, rfl, rfl, rfl, rfl⟩

/-- Settles O23: an error is the fourth way a call can end. -/
theorem errorsChangeNoState : Obligations.ErrorsChangeNoState := by
  intro s t I rest e hcalls hstep hout
  obtain ⟨o, u, heff, rfl, hout'⟩ := step_effect hcalls hstep
  cases outcome_unique hout' hout
  exact heff.frame

/-- Settles O43: the two write signals exclude each other, and the call's effect has the frame of its outcome. -/
theorem aCallWritesAtMostOneBank : Obligations.ACallWritesAtMostOneBank := by
  intro s I rest hcalls
  obtain ⟨o, u, heff, hcall⟩ := execCall_effect I { s with calls := rest }
  have hexclusive : (numWe I && histWe I s) = false := by
    cases hnum : numWe I with
    | true => simpa using histWe_of_numWe hnum s
    | false => simp
  refine ⟨_, o, (step_of_calls_cons hcalls).trans hcall, ?_, hexclusive, ?_⟩
  · rw [State.report_outcomes, heff.outcomes_eq]
  · have hframe := heff.frame
    cases o <;> exact hframe

end Sys2Proof.Machine

/-! ### O22: the order of precedence of the errors -/

namespace Sys2Proof.Machine

/-! #### The errors of the decoder -/

theorem firstError_of_length_ne {I : List Char} (h : I.length ≠ 32) (s : State) :
    firstError I s = some (.invalidLength I.length) := by
  simp [firstError, h]

/-- The five slices of `firstError` are the decoder's fields. -/
theorem any_slice_not_isBinary (I : List Char) (f : Field) :
    (slice I f.bounds.1 f.bounds.2).any (fun c => !isBinary c) = !fieldOk I f := by
  rw [fieldOk, fieldSymbols, List.not_all_eq_any_not]

/-- The part of `firstError` past the decoder's checks, over the fields of a word. -/
def firstErrorOfWord (w : Word) (s : State) : Option ExecError :=
  if w.opcode ∉ [0#6, 1#6, 33#6] then some (.invalidOpcode w.opcode)
  else if w.opcode = 0#6 ∧ w.funct ∉ [32#6, 34#6, 24#6, 26#6] then some (.invalidFunction w.funct)
  else if w.opcode = 0#6 ∧ 22 ≤ w.rs1.toNat then some (.registerOutOfRange w.rs1)
  else if w.opcode = 0#6 ∧ 22 ≤ w.rs2.toNat then some (.registerOutOfRange w.rs2)
  else if w.opcode = 0#6 ∧ w.funct = 26#6 ∧ s.loadNumber w.rs2 = .ok 0 then some .divisionByZero
  else if w.opcode = 33#6 ∧ s.hcount ≤ s.rdepth then some .noHistory
  else none

/-- `firstError` for 32 symbols, with the decoder's name for each field check. -/
theorem firstError_of_length {I : List Char} (hlen : I.length = 32) (s : State) :
    firstError I s =
      if fieldOk I .opcode = false then some (.malformedBits .opcode)
      else if fieldOk I .sourceOne = false then some (.malformedBits .sourceOne)
      else if fieldOk I .sourceTwo = false then some (.malformedBits .sourceTwo)
      else if fieldOk I .payload = false then some (.malformedBits .payload)
      else if fieldOk I .functionCode = false then some (.malformedBits .functionCode)
      else firstErrorOfWord (wordOf I) s := by
  have h (f : Field) := any_slice_not_isBinary I f
  rw [forall_field_iff] at h
  simp only [Field.bounds] at h
  obtain ⟨h1, h2, h3, h4, h5⟩ := h
  simp only [firstError, hlen, h1, h2, h3, h4, h5, Bool.not_eq_true', ne_eq, not_true_eq_false, if_false]
  rfl

theorem firstError_of_firstBadField {I : List Char} {f : Field} (hlen : I.length = 32)
    (hbad : firstBadField I = some f) (s : State) : firstError I s = some (.malformedBits f) := by
  rw [firstBadField_eq_some_iff, forall_field_iff] at hbad
  rw [firstError_of_length hlen]
  cases f <;> simp_all [Field.bounds]

theorem firstError_of_accepted {I : List Char} (hlen : I.length = 32) (hnone : firstBadField I = none) (s : State) :
    firstError I s = firstErrorOfWord (wordOf I) s := by
  have hok : ∀ f, fieldOk I f = true := by
    rw [forall_field_iff]
    simpa [firstBadField, Field.layout] using hnone
  simp [firstError_of_length hlen, hok]

/-! #### The errors past the decoder -/

/-- The error an outcome reports, if it reports one. -/
def outcomeError : ExecOutcome → Option ExecError
  | .error e => some e
  | _ => none

theorem eq_error_iff (o : ExecOutcome) (e : ExecError) : o = .error e ↔ outcomeError o = some e := by
  cases o <;> simp [outcomeError]

theorem firstErrorOfWord_of_invalid {w : Word} (h : classify w.opcode = .invalid) (s : State) :
    firstErrorOfWord w s = some (.invalidOpcode w.opcode) := by
  obtain ⟨-, -, -, hinvalid⟩ := classify_eq w.opcode
  have hnot := hinvalid.mp h
  exact if_pos (by simpa using hnot)

theorem firstErrorOfWord_of_store {w : Word} (h : classify w.opcode = .store) (s : State) :
    firstErrorOfWord w s = none := by
  obtain ⟨-, hstore, -⟩ := classify_eq w.opcode
  simp [firstErrorOfWord, hstore.mp h]

theorem firstErrorOfWord_of_recallLast {w : Word} (h : classify w.opcode = .recallLast) (s : State) :
    firstErrorOfWord w s = if s.hcount ≤ s.rdepth then some .noHistory else none := by
  obtain ⟨-, -, hrecall, -⟩ := classify_eq w.opcode
  simp [firstErrorOfWord, hrecall.mp h]

theorem firstErrorOfWord_of_aluSel_none {w : Word} (h : classify w.opcode = .arith) (hsel : aluSel w.funct = none)
    (s : State) : firstErrorOfWord w s = some (.invalidFunction w.funct) := by
  obtain ⟨harith, -⟩ := classify_eq w.opcode
  have hfunct := (aluSel_eq_none_iff _).mp hsel
  simp [firstErrorOfWord, harith.mp h, hfunct]

theorem firstErrorOfWord_of_aluSel {w : Word} (h : classify w.opcode = .arith) {sel : AluOp}
    (hsel : aluSel w.funct = some sel) (s : State) :
    firstErrorOfWord w s =
      if 22 ≤ w.rs1.toNat then some (.registerOutOfRange w.rs1)
      else if 22 ≤ w.rs2.toNat then some (.registerOutOfRange w.rs2)
      else if sel = .div ∧ s.loadNumber w.rs2 = .ok 0 then some .divisionByZero
      else none := by
  obtain ⟨harith, -⟩ := classify_eq w.opcode
  have hfunct := (aluSel_eq_some_iff _ _).mp hsel
  cases sel <;> simp [firstErrorOfWord, harith.mp h, hfunct, functionCode]

/-- The operand checks of an arithmetic instruction, in the order of precedence. -/
theorem outcomeError_arithOutcome {w : Word} {d : Decoded} (hclass : classify w.opcode = .arith)
    (hd : d = ⟨w.opcode, w.rs1, w.rs2, w.imm10, w.funct⟩) (s : State) :
    outcomeError (arithOutcome d s) = firstErrorOfWord w s := by
  subst hd
  cases hsel : aluSel w.funct with
  | none => rw [arithOutcome_of_aluSel_none hsel, firstErrorOfWord_of_aluSel_none hclass hsel]; rfl
  | some sel =>
    rw [arithOutcome_of_aluSel hsel, firstErrorOfWord_of_aluSel hclass hsel]
    by_cases h1 : w.rs1.toNat < 22
    · by_cases h2 : w.rs2.toNat < 22
      · have hin2 := (inBank_eq_true_iff w.rs2).mpr h2
        have hzero : s.loadNumber w.rs2 = .ok 0 ↔ readPort s w.rs2 = 0 := by
          rw [s.loadNumber_eq_ok_iff, eq_comm (a := (0 : Int))]
          exact and_iff_right hin2
        by_cases hdiv : sel = .div ∧ readPort s w.rs2 = 0
        · simp [(inBank_eq_true_iff w.rs1).mpr h1, hin2, h1.not_ge, h2.not_ge, hzero, div0, hdiv, outcomeError]
        · have hnonzero : div0 sel (readPort s w.rs2) = false := by simpa [div0] using hdiv
          simp [(inBank_eq_true_iff w.rs1).mpr h1, hin2, h1.not_ge, h2.not_ge, hzero, hnonzero, hdiv, outcomeError]
      · have hge2 := Nat.le_of_not_lt h2
        simp [(inBank_eq_true_iff w.rs1).mpr h1, (inBank_eq_false_iff w.rs2).mpr hge2, h1.not_ge, hge2, outcomeError]
    · have hge1 := Nat.le_of_not_lt h1
      simp [(inBank_eq_false_iff w.rs1).mpr hge1, hge1, outcomeError]

/-- The outcome mux reports the first error that applies. -/
theorem outcomeError_outcomeMux (I : List Char) (s : State) : outcomeError (outcomeMux I s) = firstError I s := by
  rcases decode_cases I with ⟨hlen, hdec⟩ | ⟨f, hlen, hbad, hdec⟩ | ⟨hlen, hnone, hdec⟩
  · rw [outcomeMux_of_decode_error hdec, firstError_of_length_ne hlen]; rfl
  · rw [outcomeMux_of_decode_error hdec, firstError_of_firstBadField hlen hbad]; rfl
  · rw [firstError_of_accepted hlen hnone]
    have hfields := sliceFields_of_wellFormed ((wellFormed_iff_checks I).mpr ⟨hlen, hnone⟩)
    rw [hfields] at hdec
    cases hclass : classify (wordOf I).opcode with
    | invalid => rw [outcomeMux_of_invalid hdec hclass, firstErrorOfWord_of_invalid hclass]; rfl
    | store => rw [outcomeMux_of_store hdec hclass, firstErrorOfWord_of_store hclass]; rfl
    | recallLast =>
      rw [outcomeMux_of_recallLast hdec hclass, firstErrorOfWord_of_recallLast hclass]
      by_cases hleft : s.rdepth < s.hcount
      · simp [State.recallOk, hleft, outcomeError]
      · simp [State.recallOk, hleft, Nat.le_of_not_lt hleft, outcomeError]
    | arith => rw [outcomeMux_of_arith hdec hclass, outcomeError_arithOutcome hclass rfl]

/-- Settles O22: the step reports what the outcome mux of the second design selects. -/
theorem firstErrorInPrecedenceIsReported : Obligations.FirstErrorInPrecedenceIsReported := by
  intro s I rest hcalls
  refine ⟨_, _, clockedRealisationEqualsTheStep s I rest hcalls, rfl, fun e => ?_⟩
  rw [eq_error_iff, outcomeError_outcomeMux]
  rfl

end Sys2Proof.Machine

/-! ### O19, O20: the operand errors of arithmetic -/

namespace Sys2Proof.Machine

/-- Settles O19: source_one is checked before source_two, and both before the ALU. -/
theorem sourceIndexOutOfRangeFails : Obligations.SourceIndexOutOfRangeFails := by
  intro op rs1 rs2 s
  rw [exec_arithInstr]
  rcases execArith_cases op rs1 rs2 s with ⟨h1, hexec⟩ | ⟨h1, h2, hexec⟩ | ⟨a, ha, hb, -, -⟩ | ⟨a, b, ha, hb, -, -⟩
  · exact ⟨fun _ => hexec ▸ raise_errorResult _ s, fun hlt => absurd h1 hlt.not_ge⟩
  · exact ⟨fun hge => absurd h1 hge.not_gt, fun _ _ => hexec ▸ raise_errorResult _ s⟩
  all_goals
    obtain ⟨hlt1, -⟩ := State.loadNumber_eq_ok ha
    obtain ⟨hlt2, -⟩ := State.loadNumber_eq_ok hb
    exact ⟨fun hge => absurd hlt1 hge.not_gt, fun _ hge => absurd hlt2 hge.not_gt⟩

/-- A division whose divisor loads as 0. -/
theorem execArith_div_of_zero {rs1 rs2 : SrcIndex} {s : State} {a : Int} (ha : s.loadNumber rs1 = .ok a)
    (hb : s.loadNumber rs2 = .ok 0) : execArith .div rs1 rs2 s = raise .divisionByZero s := by
  simp only [execArith, State.loadOperands, ha, hb, alu_div_zero]

/-- Settles O20: both registers load, and the ALU fails. -/
theorem divisionByZeroWritesNothing : Obligations.DivisionByZeroWritesNothing := by
  intro i j s hzero
  have hb : s.loadNumber (BitVec.ofNat 5 j.val) = .ok 0 := by
    rw [s.loadNumber_ofNat, hzero]
    rfl
  obtain ⟨t, hraise, herror⟩ := raise_errorResult .divisionByZero s
  exact ⟨t, (execArith_div_of_zero (s.loadNumber_ofNat i) hb).trans hraise, herror⟩

end Sys2Proof.Machine

/-! ### O33 to O36: the four arithmetic instructions complete -/

namespace Sys2Proof.Machine

/-- A result, emitted with its history write. -/
theorem emit_arithResult (op : AluOp) (v : Int) (s : State) :
    ∃ t, emit (.result op v) (s.storeHistory v) = .next t ∧ s.ArithResult op v t := by
  refine ⟨_, rfl, State.report_outcomes _ _, fun j => ?_, nextHwp_val s.hwp, rfl, rfl, ⟨rfl, rfl⟩, rfl⟩
  rw [State.histAt_congr (State.report_hist _ _), State.histAt_storeHistory]

/-- On registers of the bank an operation completes with the ALU's result, a division by 0 aside. -/
theorem exec_arithInstr_ofNat (op : AluOp) (i j : Fin 22) (s : State) (hdiv : ¬ (op = .div ∧ s.number j = 0)) :
    ∃ t, exec (arithInstr op (BitVec.ofNat 5 i.val) (BitVec.ofNat 5 j.val)) s = .next t ∧
      s.ArithResult op (aluRes op (s.number i).toNat (s.number j).toNat) t := by
  have hdiv' : ¬ (op = .div ∧ ((s.number j).toNat : Int) = 0) := by
    simpa [← BitVec.toNat_inj] using hdiv
  rw [exec_arithInstr, execArith_of_loads (s.loadNumber_ofNat i) (s.loadNumber_ofNat j) hdiv']
  exact emit_arithResult op _ s

/-- Settles O33. -/
theorem addWritesTheSumToHistory : Obligations.AddWritesTheSumToHistory :=
  fun i j s => exec_arithInstr_ofNat .add i j s (by simp)

/-- Settles O34. -/
theorem subWritesTheDifferenceToHistory : Obligations.SubWritesTheDifferenceToHistory :=
  fun i j s => exec_arithInstr_ofNat .sub i j s (by simp)

/-- Settles O35. -/
theorem mulWritesTheProductToHistory : Obligations.MulWritesTheProductToHistory :=
  fun i j s => exec_arithInstr_ofNat .mul i j s (by simp)

/-- Settles O36: on operands that are not negative the quotient truncated toward zero is rounded down. -/
theorem divWritesTheQuotientToHistory : Obligations.DivWritesTheQuotientToHistory := by
  intro i j s hj
  have hquot : aluRes .div (s.number i).toNat (s.number j).toNat =
      (((s.number i).toNat / (s.number j).toNat : Nat) : Int) := (Int.ofNat_tdiv _ _).symm
  rw [← hquot]
  exact exec_arithInstr_ofNat .div i j s fun h => hj h.2

end Sys2Proof.Machine

/-! ### O37, O38: the ranges of results -/

namespace Sys2Proof.Machine

/-- The least and the greatest result of each operation on operands of 10 bits (42_alu_arithmetic.md R127). -/
def resultRange : AluOp → Int × Int
  | .add => (0, 2046)
  | .sub => (-1023, 1023)
  | .mul => (0, 1046529)
  | .div => (0, 1023)

theorem aluRes_mem_resultRange (op : AluOp) {a b : Int} (ha : 0 ≤ a ∧ a ≤ 1023) (hb : 0 ≤ b ∧ b ≤ 1023) :
    (resultRange op).1 ≤ aluRes op a b ∧ aluRes op a b ≤ (resultRange op).2 := by
  cases op with
  | add => simp only [resultRange, aluRes, aluAdd]; omega
  | sub => simp only [resultRange, aluRes, aluSub]; omega
  | mul =>
    obtain ⟨ha0, ha1⟩ := ha
    obtain ⟨hb0, hb1⟩ := hb
    exact ⟨mul_nonneg ha0 hb0, mul_le_mul ha1 hb1 hb0 (by omega)⟩
  | div =>
    obtain ⟨ha0, ha1⟩ := ha
    obtain ⟨hb0, -⟩ := hb
    exact ⟨Int.tdiv_nonneg ha0 hb0, (Int.tdiv_le_self b ha0).trans ha1⟩

/-- Settles O37: a result comes from two loaded registers. -/
theorem resultsStayInTheirRanges : Obligations.ResultsStayInTheirRanges := by
  intro s t I rest op v hcalls hstep hout
  obtain ⟨o, u, heff, rfl, hout'⟩ := step_effect hcalls hstep
  cases outcome_unique hout' hout
  cases heff with
  | result ha hb hdiv =>
    obtain ⟨-, hra⟩ := State.loadNumber_eq_ok ha
    obtain ⟨-, hrb⟩ := State.loadNumber_eq_ok hb
    have hrange := aluRes_mem_resultRange op hra hrb
    cases op <;> exact hrange

/-- Settles O38: 21 bits hold the range that the invariant gives a slot, and more bits hold it too. -/
theorem everyResultWidthHoldsTheHistory : Obligations.EveryResultWidthHoldsTheHistory := by
  intro s w j hinv hw
  obtain ⟨hlow, hhigh⟩ := hinv.hist_range j
  have hwidth : 21 ≤ w := hw
  have hpow : (2 : Int) ^ 20 ≤ 2 ^ (w - 1) := pow_le_pow_right₀ (by omega) (by omega)
  exact BitVec.toInt_ofInt_eq_self (by omega) (by omega) (by omega)

end Sys2Proof.Machine

/-! ### O44: each instruction sees the writes of those before it -/

namespace Sys2Proof.Machine

/-- A STORE's register reads its payload. -/
theorem loadNumber_after_store (p : Payload) {s : State} (hslot : s.nslot ≠ 0) :
    ((s.storeNumber p).report (.stored s.nslot p)).loadNumber (BitVec.ofNat 5 s.nslot.val) = .ok (p.toNat : Int) := by
  rw [State.loadNumber_ofNat, State.number_congr (State.report_num _ _), State.storeNumber_number_of_ne_zero hslot,
    if_pos rfl]

/-- After a history write the ring has a value, the walk is at its start, and the newest slot holds the value. -/
theorem exec_recallLast_after_result (o : ExecOutcome) (v : Int) (s : State) :
    exec .recallLast ((s.storeHistory v).report o) =
      emit (.recalled v) (State.advanceWalk ((s.storeHistory v).report o)) := by
  have hleft : ((s.storeHistory v).report o).rdepth < ((s.storeHistory v).report o).hcount := by
    rw [State.report_rdepth, State.report_hcount, State.storeHistory_rdepth, State.storeHistory_hcount]
    omega
  rw [exec_recallLast_of_lt hleft, State.histAt_congr (State.report_hist _ _), State.histAt_storeHistory,
    State.report_hwp, State.report_rdepth, State.storeHistory_hwp, State.storeHistory_rdepth,
    recallAddr_nextHwp_zero, if_pos rfl]

/-- Settles O44: the result reported is the value written to history. -/
theorem laterInstructionsSeeEarlierWrites : Obligations.LaterInstructionsSeeEarlierWrites := by
  refine ⟨fun p s hslot => ⟨_, exec_store p s, loadNumber_after_store p hslot⟩, fun op rs1 rs2 v s t hexec hout => ?_⟩
  obtain ⟨o, u, heff, hexec'⟩ := exec_effect (arithInstr op rs1 rs2) s
  rw [hexec'] at hexec
  cases hexec
  rw [State.report_outcomes, heff.outcomes_eq] at hout
  cases outcome_unique rfl hout
  cases heff with
  | result ha hb hdiv => exact ⟨_, exec_recallLast_after_result _ _ s, rfl⟩

end Sys2Proof.Machine

/-! ### O47: the history snapshot -/

namespace Sys2Proof.Machine

/-- The snapshot lists the value fields by slot. -/
theorem State.snapHistory_eq_ofFn (s : State) : s.snapHistory = List.ofFn s.histAt := List.ofFn_eq_map.symm

theorem State.getElem?_snapHistory (s : State) (j : Fin 10) : s.snapHistory[j.val]? = some (s.histAt j) := by
  rw [s.snapHistory_eq_ofFn, List.getElem?_ofFn, dif_pos j.isLt]

/-- Settles O47: each place of the snapshot shows its slot, and by the invariant an absent slot holds 0. -/
theorem historySnapshotShowsTheValueFields : Obligations.HistorySnapshotShowsTheValueFields := by
  intro s
  refine ⟨by rw [s.snapHistory_eq_ofFn, List.length_ofFn], s.getElem?_snapHistory, fun hinv j habsent => ?_⟩
  rw [s.getElem?_snapHistory, hinv.absent_zero j habsent]

end Sys2Proof.Machine
